-- ==== Sys2Proof/Word.lean ====
section
/-! DEFINITION. The engine's plain words: bytes, nibbles, pin identifiers and wire levels (rules R10, R14, R15). -/

namespace Sys2Proof

/-- A byte is 8 bits (R14). -/
abbrev Byte := BitVec 8

/-- A nibble is 4 bits (R14). -/
abbrev Nibble := BitVec 4

/-- The pin type at which the machine of `exec` and `step` is taken. R10 makes the type of pin identifiers a parameter,
opaque with decidable equality: every definition that names a pin takes it as the parameter `P`, and `PinId` is only its
default, because the host fixes `Instr`, `State`, `exec` and `step` without arguments (log entry 3). Its `number` is
read and written by the packet codec alone, which R62 narrows to 8 bits. -/
structure PinId where
  number : Nat
  deriving DecidableEq, Repr

/-- "level is one of {LOW, HIGH}" (R15). -/
inductive Level where
  | low
  | high
  deriving DecidableEq, Repr

end Sys2Proof
end

