-- ==== Sys2Proof/Config.lean ====
section
/-! DEFINITION. The named parameters of the spec (R9, R12, R13, R178): the types that hold them. They are fixed for
a run and no step changes them; the spec says each is an argument of the model, so they stand in State as the plain
record `Env` and a statement about every state holds for every value of them. Their default values are in
Sys2Proof/Machine/Defaults.lean. -/

namespace Sys2Proof

/-- The command and flag constants `K.<NAME>` of R66, 8 bits each (R9). -/
structure Consts where
  clearDisplay : Byte
  returnHome : Byte
  entryModeSet : Byte
  displayControl : Byte
  cursorShift : Byte
  functionSet : Byte
  setCgramAddr : Byte
  setDdramAddr : Byte
  entryRight : Byte
  entryLeft : Byte
  entryShiftIncrement : Byte
  entryShiftDecrement : Byte
  displayOn : Byte
  displayOff : Byte
  cursorOn : Byte
  cursorOff : Byte
  blinkOn : Byte
  blinkOff : Byte
  eightBitMode : Byte
  fourBitMode : Byte
  twoLine : Byte
  oneLine : Byte
  fiveByTenDots : Byte
  fiveByEightDots : Byte
  deriving DecidableEq, Repr

/-- The platform oracle `cfgOk : PinId -> Bool` of R12 as plain data: the pins the platform rejects, or the pins it
accepts. A run touches finitely many pins, so every run of every oracle is covered. -/
inductive PinOracle (P : Type := PinId) where
  | allBut (bad : List P)
  | only (good : List P)
  deriving DecidableEq, Repr

/-- The parameters of a run. -/
structure Env (P : Type := PinId) where
  /-- `K`, the constants of R66. -/
  k : Consts
  /-- `NEWLINE`, the code of the character PRINT intercepts (R13). -/
  newline : Nat
  /-- `cfgOk` (R12). -/
  platform : PinOracle P
  /-- `T_CLEAR_EXEC` in microseconds (R13, R224). -/
  tClearExec : Nat
  /-- `T_POWER_ON` in microseconds (R13, R227). -/
  tPowerOn : Nat
  /-- `BLANK`, what a cleared cell of the display holds (R173). -/
  blank : Byte
  /-- The exceptions of `acNext` (R178): where the address counter does not step by one. -/
  acJumps : List (Nat × Nat)
  /-- The valid DDRAM address ranges (R178), first and last address of each. -/
  ddramRanges : List (Nat × Nat)
  deriving DecidableEq, Repr

end Sys2Proof
end

