-- ==== Sys2Proof/Machine/Defaults.lean ====
section
/-! DEFINITION. The default values of the spec's named parameters (R66, R13, R178), and the numbers DOC00 fixes,
which are no parameters (R8). -/

namespace Sys2Proof.Machine

/-- PRESUMED: the defaults of R66, marked there as general knowledge of the HD44780 family (log entry 4). -/
def defaultConsts : Consts where
  clearDisplay := 0x01
  returnHome := 0x02
  entryModeSet := 0x04
  displayControl := 0x08
  cursorShift := 0x10
  functionSet := 0x20
  setCgramAddr := 0x40
  setDdramAddr := 0x80
  entryRight := 0x00
  entryLeft := 0x02
  entryShiftIncrement := 0x01
  entryShiftDecrement := 0x00
  displayOn := 0x04
  displayOff := 0x00
  cursorOn := 0x02
  cursorOff := 0x00
  blinkOn := 0x01
  blinkOff := 0x00
  eightBitMode := 0x10
  fourBitMode := 0x00
  twoLine := 0x08
  oneLine := 0x00
  fiveByTenDots := 0x04
  fiveByEightDots := 0x00

/-- The default parameters: NEWLINE = 0x0A (R13, log entry 4), a platform that accepts every pin (log entry 5),
T_CLEAR_EXEC and T_POWER_ON (log entry 6), and the shadow parameters of R178 (log entry 7). -/
def defaultEnv : Env where
  k := defaultConsts
  newline := 0x0A
  platform := .allBut []
  tClearExec := 2000
  tPowerOn := 40000
  blank := 0x20
  acJumps := [(0x27, 0x40), (0x67, 0x00)]
  ddramRanges := [(0x00, 0x27), (0x40, 0x67)]

/-- `T_SETTLE` (R8). -/
def tSettle : Nat := 50

/-- `T_PULSE` (R8). -/
def tPulse : Nat := 1

/-- `T_INIT1` (R8). -/
def tInit1 : Nat := 4100

/-- `T_INIT2` (R8). -/
def tInit2 : Nat := 100

/-- `RAW_INIT1` (R8). -/
def rawInit1Value : Byte := 0x33

/-- `RAW_INIT2` (R8). -/
def rawInit2Value : Byte := 0x32

end Sys2Proof.Machine
end

