-- ==== Sys2Proof/Syntax.lean ====
section
/-! DEFINITION. The rows of spec/opcode_table.json as one inductive, the raw configuration and the abstract
requests of R60, the events of R16 and the two encoded forms (R62, R82). -/

namespace Sys2Proof

/-- The operand of CREATE (R60): any field may be absent and `dataPins` may have any length, so that every
configuration error of R93 can be written down. -/
structure RawConfig (P : Type := PinId) where
  rs       : Option P
  en       : Option P
  dataPins : Option (List P)
  columns  : Option Int
  rows     : Option Int
  deriving DecidableEq, Repr

/-- One call on the GPIO collaborator (R16). -/
inductive Event (P : Type := PinId) where
  /-- `configureOutput(p, l)`. -/
  | cfg (p : P) (l : Level)
  /-- `writeDigital(p, l)`. -/
  | wr (p : P) (l : Level)
  /-- `sleepMicroseconds(d)`. -/
  | sleep (d : Nat)
  deriving DecidableEq, Repr

/-- One constructor per row of spec/opcode_table.json, in the table's order. Operands are those of the abstract
model (R11); `WellFormed` says which of them an encoding can carry. -/
inductive Instr (P : Type := PinId) where
  /-- CREATE(config), R90 to R102. -/
  | create (config : RawConfig P)
  /-- CLEAR, R105 to R109. -/
  | clear
  /-- PRINT(text), R110 to R119; a character is its ordinal code (R11). -/
  | print (text : List Nat)
  /-- SETCURSOR(col, row), R120 to R129. -/
  | setcursor (col : Nat) (row : Int)
  /-- A packet whose byte 0 is reserved (R64), with the bytes that follow it. -/
  | reservedRequest (opcode : Byte) (rest : List Byte)
  /-- Frame RAW_INIT1 (R74). -/
  | rawInit1
  /-- Frame RAW_INIT2 (R75). -/
  | rawInit2
  /-- Frame DISPLAYCONTROL (R76). -/
  | displaycontrol
  /-- Frame FUNCTIONSET (R77). -/
  | functionset
  /-- Frame ENTRYMODESET (R78). -/
  | entrymodeset
  /-- Frame CLEARDISPLAY (R79). -/
  | cleardisplay
  /-- Frame SETDDRAMADDR (R80); `addr` is the unbounded natural of R70. -/
  | setddramaddr (addr : Nat)
  /-- Frame DATA (R81); `code` is the ordinal code of R70. -/
  | data (code : Nat)
  /-- Frame RETURNHOME, never emitted (R73); `x` is the ignored bit 0. -/
  | returnhome (x : Bool)
  /-- Frame CURSORSHIFT, never emitted (R73); `xx` are the ignored bits 1..0. -/
  | cursorshift (s r : Bool) (xx : BitVec 2)
  /-- Frame SETCGRAMADDR, never emitted (R73). -/
  | setcgramaddr (addr : BitVec 6)
  /-- WRITE8(v, rsFlag, settle, initDelay), R130 to R140. -/
  | write8 (v : Byte) (rsFlag : Bool) (settle : Nat) (initDelay : Option Nat)
  /-- NIBBLE(n), R134. -/
  | nibble (n : Nibble)
  /-- PULSE, R145 to R149. -/
  | pulse
  /-- `Cfg(p, l)`, R150. -/
  | cfg (p : P) (l : Level)
  /-- `Wr(p, l)`, R151. -/
  | wr (p : P) (l : Level)
  /-- `Sleep(d)`, R152. -/
  | sleep (d : Nat)
  deriving DecidableEq, Repr

/-- The four requests of the public operation surface (R60). -/
inductive Request (P : Type := PinId) where
  | create (config : RawConfig P)
  | clear
  | print (text : List Nat)
  | setcursor (col : Nat) (row : Int)
  deriving DecidableEq, Repr

/-! The pin identifiers are a type parameter (R10). -/
variable {P : Type}

/-- The instruction a request asks for. -/
def Request.toInstr : Request P → Instr P
  | .create config => .create config
  | .clear => .clear
  | .print text => .print text
  | .setcursor col row => .setcursor col row

/-- The instruction that performs an event. -/
def Event.toInstr : Event P → Instr P
  | .cfg p l => .cfg p l
  | .wr p l => .wr p l
  | .sleep d => .sleep d

/-- The two encoded forms of the table: a request packet (R62) and a bus frame as the 9-bit number
`rs * 256 + v` (R82). Rows of the spaces `internal` and `gpio_event` have neither. -/
inductive Code where
  | packet (bytes : List Byte)
  | frame (w : BitVec 9)
  deriving DecidableEq, Repr

end Sys2Proof
end

