-- ==== Sys2Proof/Machine/State.lean ====
section
/-! DEFINITION. The state of the machine as plain data: the engine's state of R20, its request and result ports
(R38), the receiver's view of the wires (R165 to R178), the run's parameters; the reasons a step can stop; reset. -/

namespace Sys2Proof.Machine

/-- Whether the engine has been constructed (R23). -/
inductive Phase where
  | uninit
  | ready
  deriving DecidableEq, Repr

/-- The legal values of `cfg.rows`: 1, 2, 3 or 4 (R21). -/
inductive RowCount where
  | one
  | two
  | three
  | four
  deriving DecidableEq, Repr

/-- The configuration register file (R21). The four elements of `cfg.d` are `d0` to `d3`. -/
structure EngineConfig (P : Type := PinId) where
  rs : P
  en : P
  d0 : P
  d1 : P
  d2 : P
  d3 : P
  columns : Nat
  rows : RowCount
  deriving DecidableEq, Repr

/-- The outcome of a request as the result port carries it (R38, R185). -/
inductive Result (P : Type := PinId) where
  /-- The request completed. -/
  | success
  /-- Code 1, raised by CREATE when a check V1 to V6 fails (R187). -/
  | configurationError
  /-- Code 2, raised by CREATE when the platform rejects pin `p` (R188). -/
  | hardwareAccessError (p : P)
  /-- Code 3: CLEAR, PRINT or SETCURSOR before a successful CREATE (R190). -/
  | notInitialized
  /-- Code 4: CREATE when already READY (R194). -/
  | alreadyInitialized
  /-- Code 5: SETCURSOR with a negative row (R191). -/
  | rowIndexUndefined (row : Int)
  /-- Code 6: packet byte 0 is reserved (R192). -/
  | unknownRequest (opcode : Byte)
  /-- Code 7: the packet is too short or too long (R192). -/
  | malformedRequest
  deriving DecidableEq, Repr

/-- The request in progress: what its last event will complete (R39, R96). The model's own field: R20 leaves it to
the phrase "is in a call or not" (log entry 2). -/
inductive InFlight (P : Type := PinId) where
  /-- CREATE, with the configuration it will write into `cfg`. -/
  | create (c : EngineConfig P)
  /-- CLEAR, PRINT or SETCURSOR. -/
  | command
  deriving DecidableEq, Repr

/-- One move of the host, in the order it makes them (R38, R231). -/
inductive HostMove (P : Type := PinId) where
  /-- It puts a request packet on the request port (R62). -/
  | packet (bytes : List Byte)
  /-- It puts an abstract request on the request port (R60). -/
  | request (r : Request P)
  /-- It lets at least `us` microseconds pass before its next request (R224, R227). -/
  | wait (us : Nat)
  /-- It resets the engine (R210, R231). -/
  | reset
  deriving DecidableEq, Repr

/-- What a display latches at a falling edge of enable (R166). -/
structure Sample where
  rs : Bool
  n : Nibble
  deriving DecidableEq, Repr

/-- One transfer as the receiver sees it, `(rs, v)` (R72, R167). -/
structure Frame where
  rs : Bool
  v : Byte
  deriving DecidableEq, Repr

/-- The output latches (R24): each pin driven since reset, once, in the order first driven, with the level last driven
on it; an unlisted pin is UNCONFIGURED. -/
abbrev Latches (P : Type := PinId) := List (P × Level)

/-- The display shadow (R172), in the states of knowledge the spec names. -/
inductive Shadow where
  /-- Nothing is known until CREATE's clear has been sent (R211). -/
  | unknown
  /-- The clear has been sent, but the CREATE has not returned: the shadow is valid only from its end (R172). -/
  | cleared
  /-- The DDRAM cells that differ from BLANK, addresses strictly rising, and the address counter. -/
  | known (ddram : List Host.Cell) (ac : BitVec 7)
  /-- Unknown from now on: the host broke a duty (R172, R224, R227) or an address outside the valid ranges was set
  (R178). -/
  | lost
  deriving DecidableEq, Repr

/-- The receiver's view of the six wires: an external device, no engine state (R165). -/
structure Display where
  /-- The high nibble latched while the low one is awaited (R46, R167). -/
  half : Option Sample
  /-- DDRAM and address counter (R172). -/
  shadow : Shadow
  /-- The microseconds the host has still to let pass, from the return of a request that cleared the display, before
  its next request (R224). -/
  clearDuty : Nat
  /-- The microseconds the host has still to let pass, from power-up, before a CREATE (R227). -/
  powerDuty : Nat
  deriving DecidableEq, Repr

/-- The state of the machine. -/
structure State (P : Type := PinId) where
  /-- UNINIT or READY (R23). -/
  phase : Phase
  /-- The configuration register file, none before CREATE succeeds (R21, R35). -/
  cfg : Option (EngineConfig P)
  /-- The output latches (R24). -/
  out : Latches P
  /-- What the engine has committed to perform and has not yet performed (R25); between steps of a run only
  events, each as the instruction that performs it (log entry 1). -/
  pending : List (Instr P)
  /-- The row counter of PRINT, none except while a PRINT is being expanded (R26). -/
  printRow : Option Nat
  /-- Every event performed since reset, oldest first (R27). -/
  trace : List (Event P)
  /-- The request in progress; the model's own field. -/
  inFlight : Option (InFlight P)
  /-- The request port: the host's moves still to come, next first (R38, R203). -/
  host : List (HostMove P)
  /-- The result port: every result delivered since reset, oldest first (R7, R38). -/
  results : List (Result P)
  /-- The receiver's view (R166 to R178). -/
  display : Display
  /-- The run's parameters (R9, R12, R13, R178); no step changes them. -/
  env : Env P
  deriving DecidableEq, Repr

/-- Why a step stops the machine. -/
inductive Fault where
  /-- An operation that reads pins is executed while no configuration exists (no CREATE succeeded, none in
  progress). Raised by WRITE8, NIBBLE, PULSE, the eight emitted frames, and by CLEAR, PRINT and SETCURSOR in a state
  that is READY without a configuration. R35: "reading one is impossible because every reader is refused in
  `UNINIT`". Safe: no run from reset comes here. -/
  | noConfiguration
  deriving DecidableEq, Repr

/-- Why an instruction is given no meaning. -/
inductive Refusal where
  /-- The instruction has no meaning in the model yet; raised by exec's arms only. Safe. -/
  | notModelled (mnemonic : String)
  /-- A request is executed while events are pending: the request port is closed then (R39). Raised by CREATE, CLEAR,
  PRINT, SETCURSOR and RESERVED_REQUEST. Safe: a step takes a request only when the engine is idle. -/
  | portClosed
  /-- RETURNHOME, CURSORSHIFT or SETCGRAMADDR: the engine never emits the frame and no rule gives it an effect (R69,
  R73). Raised by those three instructions. Safe. -/
  | neverEmitted (mnemonic : String)
  deriving DecidableEq, Repr

/-! The pin identifiers are a type parameter (R10). -/
variable {P : Type}

/-- The display before anything is known of it: as if power had just been applied (log entry 6). -/
def Display.initial (env : Env P) : Display where
  half := none
  shadow := .unknown
  clearDuty := 0
  powerDuty := env.tPowerOn

/-- The reset state of R35 under given parameters and with a given host. -/
def State.init (env : Env P) (host : List (HostMove P)) : State P where
  phase := .uninit
  cfg := none
  out := []
  pending := []
  printRow := none
  trace := []
  inFlight := none
  host := host
  results := []
  display := Display.initial env
  env := env

/-- The machine right after reset (R35), with the default parameters and a host that has not yet moved. -/
def State.reset : State := State.init defaultEnv []

end Sys2Proof.Machine
end

