-- ==== Sys2Proof/Machine/Operands.lean ====
section
/-! DEFINITION. Operand assembly: levels, nibbles, the row table and clamp, the bytes of the frames (R14, R15, R42,
R47, R68, R70, R122, R123). -/

namespace Sys2Proof.Machine

/-! The pin identifiers are a type parameter (R10). -/
variable {P : Type}

/-- `trunc8(x) = x mod 256` (R14). -/
def trunc8 (n : Nat) : Byte := BitVec.ofNat 8 n

/-- `lvl` (R15): a 1 bit or true is HIGH, a 0 bit or false LOW (log entry 8). -/
def lvl (b : Bool) : Level := if b then .high else .low

/-- `v[7:4]` (R41). -/
def highNibble (v : Byte) : Nibble := BitVec.ofNat 4 (v.toNat / 16)

/-- `v[3:0]` (R41). -/
def lowNibble (v : Byte) : Nibble := BitVec.ofNat 4 v.toNat

/-- `n0*16 + n1`, the byte of two nibbles (R167). -/
def joinNibbles (hi lo : Nibble) : Byte := BitVec.ofNat 8 (hi.toNat * 16 + lo.toNat)

/-- The number with bit `i` equal to 1 exactly when `bi` is true (R166). -/
def nibbleOfBits (b0 b1 b2 b3 : Bool) : Nibble :=
  BitVec.ofNat 4 (b0.toNat + 2 * b1.toNat + 4 * b2.toNat + 8 * b3.toNat)

/-- `cfg.rows` as a number (R21). -/
def RowCount.toNat : RowCount → Nat
  | .one => 1
  | .two => 2
  | .three => 3
  | .four => 4

/-- The row count of an integer, where it is legal: checks V4 and V5 (R93). -/
def RowCount.ofInt (rows : Int) : Option RowCount :=
  if rows = 1 then some .one
  else if rows = 2 then some .two
  else if rows = 3 then some .three
  else if rows = 4 then some .four
  else none

/-- `cfg.rows - 1`, an index of the row table (R122). -/
def RowCount.last : RowCount → Fin 4
  | .one => 0
  | .two => 1
  | .three => 2
  | .four => 3

/-- The row offset table (R47): exactly four entries (R48). -/
def rowOffset : Fin 4 → Nat
  | 0 => 0x00
  | 1 => 0x40
  | 2 => 0x14
  | 3 => 0x54

/-- `min(row, cfg.rows - 1)` for `row >= 0` (R122). -/
def clampRow (rows : RowCount) (row : Nat) : Fin 4 :=
  ⟨min row rows.last, Nat.lt_of_le_of_lt (Nat.min_le_right _ _) rows.last.isLt⟩

/-- `addr = col + ROW_OFFSET[clampedRow]`, an unbounded natural (R121). -/
def cursorAddr (rows : RowCount) (col row : Nat) : Nat := col + rowOffset (clampRow rows row)

/-- `trunc8(K.SETDDRAMADDR | addr)` (R123). -/
def setDdramByte (k : Consts) (addr : Nat) : Byte := trunc8 (k.setDdramAddr.toNat ||| addr)

/-- The composed byte of CREATE step 4 (R68). -/
def displayControlByte (k : Consts) : Byte := k.displayControl ||| k.displayOn ||| k.cursorOff ||| k.blinkOff

/-- The composed byte of CREATE step 5 (R68). -/
def functionSetByte (k : Consts) : Byte := k.functionSet ||| k.fourBitMode ||| k.twoLine ||| k.fiveByEightDots

/-- The composed byte of CREATE step 6 (R68). -/
def entryModeByte (k : Consts) : Byte := k.entryModeSet ||| k.entryLeft ||| k.entryShiftDecrement

/-- The six pins in setup order (R94). -/
def EngineConfig.pins (c : EngineConfig P) : List P := [c.rs, c.en, c.d0, c.d1, c.d2, c.d3]

/-- `cfgOk` (R12). -/
def cfgOk [DecidableEq P] (env : Env P) (p : P) : Bool :=
  match env.platform with
  | .allBut bad => !bad.contains p
  | .only good => good.contains p

/-- The code of a result (R185); a success has none. -/
def Result.code : Result P → Option Nat
  | .success => none
  | .configurationError => some 1
  | .hardwareAccessError _ => some 2
  | .notInitialized => some 3
  | .alreadyInitialized => some 4
  | .rowIndexUndefined _ => some 5
  | .unknownRequest _ => some 6
  | .malformedRequest => some 7

end Sys2Proof.Machine
end

