-- ==== Sys2Proof/Machine/Flags.lean ====
section
/-! DEFINITION. The engine has no flags and no condition codes (R29). Its only conditional behaviours test an
operand: the newline test (R112), the checks of CREATE (R93); the row clamp (R122) is in Operands.lean, the optional
init delay (R133) in Events.lean. -/

namespace Sys2Proof.Machine

/-! The pin identifiers are a type parameter (R10). -/
variable {P : Type}

/-- The newline test: on the whole character code, before truncation (R112). -/
def isNewline (env : Env P) (code : Nat) : Bool := code == env.newline

/-- Pairwise distinct pins (R21). -/
def allDistinct [DecidableEq P] : List P → Bool
  | [] => true
  | p :: ps => !ps.contains p && allDistinct ps

/-- V1: every field is present (R93). -/
def checkV1 (c : RawConfig P) : Bool :=
  c.rs.isSome && c.en.isSome && c.dataPins.isSome && c.columns.isSome && c.rows.isSome

/-- V2: `dataPins` has exactly 4 elements (R93). -/
def checkV2 (c : RawConfig P) : Bool :=
  match c.dataPins with
  | some ps => ps.length == 4
  | none => false

/-- V3: `columns >= 1` (R93). -/
def checkV3 (c : RawConfig P) : Bool :=
  match c.columns with
  | some n => decide (1 ≤ n)
  | none => false

/-- V4: `rows >= 1` (R93). -/
def checkV4 (c : RawConfig P) : Bool :=
  match c.rows with
  | some n => decide (1 ≤ n)
  | none => false

/-- V5: `rows <= 4` (R93). -/
def checkV5 (c : RawConfig P) : Bool :=
  match c.rows with
  | some n => decide (n ≤ 4)
  | none => false

/-- V6: the six pin identifiers are pairwise distinct (R93). -/
def checkV6 [DecidableEq P] (c : RawConfig P) : Bool :=
  match c.rs, c.en, c.dataPins with
  | some rs, some en, some ps => allDistinct (rs :: en :: ps)
  | _, _, _ => false

/-- All six checks (R93). -/
def validConfig [DecidableEq P] (c : RawConfig P) : Bool :=
  checkV1 c && checkV2 c && checkV3 c && checkV4 c && checkV5 c && checkV6 c

/-- The configuration a RawConfig becomes (R92), none where a check fails (R93). -/
def configOf [DecidableEq P] (c : RawConfig P) : Option (EngineConfig P) :=
  if validConfig c then
    match c.rs, c.en, c.dataPins, c.columns, c.rows with
    | some rs, some en, some [d0, d1, d2, d3], some columns, some rows =>
        (RowCount.ofInt rows).map fun n =>
          { rs := rs, en := en, d0 := d0, d1 := d1, d2 := d2, d3 := d3, columns := columns.toNat, rows := n }
    | _, _, _, _, _ => none
  else none

end Sys2Proof.Machine
end

