-- ==== Sys2Proof/Machine/Pins.lean ====
section
/-! DEFINITION. The output latches: one read, one write, one form (R24). -/

namespace Sys2Proof.Machine

/-! The pin identifiers are a type parameter (R10). -/
variable {P : Type}

/-- `out[p]`: the level last driven, none for UNCONFIGURED (R24). -/
def Latches.get [DecidableEq P] (p : P) : Latches P → Option Level
  | [] => none
  | (q, l) :: rest => if q = p then some l else Latches.get p rest

/-- `out[p] <- l` (R24): in place, or behind the pins already listed. Only equality of pins is read (R10). -/
def Latches.set [DecidableEq P] (p : P) (l : Level) : Latches P → Latches P
  | [] => [(p, l)]
  | (q, m) :: rest => if q = p then (p, l) :: rest else (q, m) :: Latches.set p l rest

/-- The form the list keeps: each pin listed once, in the order first driven. -/
def Latches.wf [DecidableEq P] (out : Latches P) : Bool := allDistinct (out.map Prod.fst)

/-- The effect of an event on the latches (R24, R150 to R152). -/
def Latches.after [DecidableEq P] (e : Event P) (out : Latches P) : Latches P :=
  match e with
  | .cfg p l => out.set p l
  | .wr p l => out.set p l
  | .sleep _ => out

/-- The latches after a list of events. -/
def Latches.afterAll [DecidableEq P] (events : List (Event P)) (out : Latches P) : Latches P :=
  events.foldl (fun o e => Latches.after e o) out

end Sys2Proof.Machine
end

