-- ==== Sys2Proof/Machine/Memory.lean ====
section
/-! DEFINITION. The display's DDRAM as the receiver's view holds it: a list of (address, byte) pairs in one canonical
form. An unlisted address reads as BLANK, what the clear that made the contents known has put there (R173). -/

namespace Sys2Proof.Machine

/-- The cell at `a`. -/
def Memory.read (blank : Byte) (a : Nat) : List Host.Cell → Byte
  | [] => blank
  | (b, v) :: rest => if b = a then v else Memory.read blank a rest

/-- The list without an entry for `a`. -/
def Memory.erase (a : Nat) : List Host.Cell → List Host.Cell
  | [] => []
  | (b, v) :: rest => if b = a then rest else (b, v) :: Memory.erase a rest

/-- The list with `v` at `a`, addresses strictly rising. -/
def Memory.insert (a : Nat) (v : Byte) : List Host.Cell → List Host.Cell
  | [] => [(a, v)]
  | (b, w) :: rest =>
      if a < b then (a, v) :: (b, w) :: rest
      else if a = b then (a, v) :: rest
      else (b, w) :: Memory.insert a v rest

/-- `MemWrite(a, 1, v)` (R17, R175): writing BLANK removes the entry. -/
def Memory.write (blank : Byte) (a : Nat) (v : Byte) (m : List Host.Cell) : List Host.Cell :=
  if v = blank then Memory.erase a m else Memory.insert a v m

/-- Every listed address is above `a`. -/
def Memory.above (a : Nat) (m : List Host.Cell) : Bool := m.all (fun c => decide (a < c.1))

/-- The canonical form: addresses strictly rising, no entry equal to BLANK. -/
def Memory.wf (blank : Byte) : List Host.Cell → Bool
  | [] => true
  | (a, v) :: rest => Memory.above a rest && !(v == blank) && Memory.wf blank rest

end Sys2Proof.Machine
end

