-- ==== Sys2Proof/Machine/Observer.lean ====
section
/-! DEFINITION. The receiver's view: the bus observer (R166, R167) and the display shadow (R172 to R179). -/

namespace Sys2Proof.Machine

/-! The pin identifiers are a type parameter (R10). -/
variable {P : Type}

/-! ### The bus observer -/

/-- Whether pin `p` is HIGH. -/
def isHigh [DecidableEq P] (out : Latches P) (p : P) : Bool := out.get p == some .high

/-- What the lines carry now: `r` from register select, bit `i` of `n` from data pin `i` (R166). -/
def sampleOf [DecidableEq P] (c : EngineConfig P) (out : Latches P) : Sample where
  rs := isHigh out c.rs
  n := nibbleOfBits (isHigh out c.d0) (isHigh out c.d1) (isHigh out c.d2) (isHigh out c.d3)

/-- Whether performing `e` makes a falling edge of enable (R166). -/
def isFallingEdge [DecidableEq P] (c : EngineConfig P) (out : Latches P) (e : Event P) : Bool :=
  match e with
  | .wr p .low => p == c.en && isHigh out c.en
  | .cfg p .low => p == c.en && isHigh out c.en
  | _ => false

/-- `latch` of a trace that starts with the latches `out`, oldest sample first (R166). -/
def latchFrom [DecidableEq P] (c : EngineConfig P) (out : Latches P) : List (Event P) → List Sample
  | [] => []
  | e :: rest =>
      if isFallingEdge c out e then sampleOf c out :: latchFrom c (out.after e) rest
      else latchFrom c (out.after e) rest

/-- `latch(T)` of a trace from reset (R166). -/
def latch [DecidableEq P] (c : EngineConfig P) (trace : List (Event P)) : List Sample := latchFrom c [] trace

/-- The frame of two samples (R167). -/
def frameOf (hi lo : Sample) : Frame where
  rs := hi.rs
  v := joinNibbles hi.n lo.n

/-- Consecutive pairs of samples as frames (R167); an odd last sample is half a frame and gives none. -/
def pairFrames : List Sample → List Frame
  | hi :: lo :: rest => frameOf hi lo :: pairFrames rest
  | _ => []

/-- The frames of a trace that starts with the latches `out`. -/
def framesFrom [DecidableEq P] (c : EngineConfig P) (out : Latches P) (events : List (Event P)) : List Frame :=
  pairFrames (latchFrom c out events)

/-- `frames(T)` of a trace from reset (R167). -/
def frames [DecidableEq P] (c : EngineConfig P) (trace : List (Event P)) : List Frame := framesFrom c [] trace

/-- `time(T)`: the sum of the Sleep arguments, a lower bound of the duration (R19). -/
def time : List (Event P) → Nat
  | [] => 0
  | .sleep d :: rest => d + time rest
  | .cfg _ _ :: rest => time rest
  | .wr _ _ :: rest => time rest

/-- The time of each latch since the trace's first event, `now` microseconds having passed (R169). -/
def latchTimesFrom [DecidableEq P] (c : EngineConfig P) (now : Nat) (out : Latches P) : List (Event P) → List Nat
  | [] => []
  | e :: rest =>
      if isFallingEdge c out e then now :: latchTimesFrom c (now + time [e]) (out.after e) rest
      else latchTimesFrom c (now + time [e]) (out.after e) rest

/-! ### The display shadow -/

/-- Whether the display implements DDRAM address `a` (R178). -/
def validAddr (env : Env P) (a : Nat) : Bool :=
  env.ddramRanges.any (fun r => decide (r.1 ≤ a) && decide (a ≤ r.2))

/-- `acNext` (R178): `a + 1` but for the listed jumps. -/
def acNext (env : Env P) (a : BitVec 7) : BitVec 7 :=
  match env.acJumps.lookup a.toNat with
  | some b => BitVec.ofNat 7 b
  | none => a + 1

/-- Clear display (R173): every cell BLANK, the address counter 0; until a CREATE has returned that may not be claimed
(R172). What is lost stays lost (R178, log entry 9). -/
def Shadow.clear : Shadow → Shadow
  | .lost => .lost
  | .unknown => .cleared
  | .cleared => .cleared
  | .known _ _ => .known [] 0

/-- Set DDRAM address (R174), lost where the display does not implement the address (R178). -/
def Shadow.setAddr (env : Env P) (a : BitVec 7) (x : Shadow) : Shadow :=
  if validAddr env a.toNat then
    match x with
    | .known ddram _ => .known ddram a
    | .unknown => .unknown
    | .cleared => .unknown
    | .lost => .lost
  else .lost

/-- A data frame (R175): store at the address counter, then step it. -/
def Shadow.data (env : Env P) (v : Byte) : Shadow → Shadow
  | .known ddram ac =>
      if validAddr env ac.toNat then
        .known (Memory.write env.blank ac.toNat v ddram) (acNext env ac)
      else .lost
  | .unknown => .unknown
  | .cleared => .unknown
  | .lost => .lost

/-- A CREATE has returned: what its clear left is known from now on (R172, R211). -/
def Shadow.created : Shadow → Shadow
  | .cleared => .known [] 0
  | .known ddram ac => .known ddram ac
  | .unknown => .unknown
  | .lost => .lost

/-- Whether a command byte is one of those that leave the shadow alone (R176, R177). -/
def isModeByte (k : Consts) (v : Byte) : Bool :=
  v == rawInit1Value || v == rawInit2Value || v == displayControlByte k || v == functionSetByte k ||
    v == entryModeByte k

/-- The shadow after a frame (R173 to R177). A command frame that no rule gives an effect, which the engine never
emits with the default constants (R69), makes it lost. DESIGN CHOICE (log entry 28): the constants are parameters, and
where two of R173, R174, R176 and R177 fit one byte (a `K.CLEARDISPLAY` with bit 7 set is both the clear and a
set-address) no rule says which goes first; the model takes the clear first, then the set-address, then the mode bytes.
Unsafe for such constants; with the defaults no two fit. -/
def Shadow.frame (env : Env P) (f : Frame) (s : Shadow) : Shadow :=
  if f.rs then s.data env f.v
  else if f.v = env.k.clearDisplay then s.clear
  else if 128 ≤ f.v.toNat then s.setAddr env (BitVec.ofNat 7 f.v.toNat)
  else if isModeByte env.k f.v then s
  else .lost

/-- Whether a frame is the clear-display instruction, whatever its other bits (log entry 28). -/
def Frame.isClear (k : Consts) (f : Frame) : Bool := !f.rs && f.v == k.clearDisplay

/-- The display takes a complete frame: the shadow follows it, and a clear puts the whole `T_CLEAR_EXEC` before the
host's next request (R224): it runs from the return, so no event of the request counts towards it. -/
def Display.frame (env : Env P) (f : Frame) (x : Display) : Display where
  half := none
  shadow := x.shadow.frame env f
  clearDuty := if f.isClear env.k then env.tClearExec else x.clearDuty
  powerDuty := x.powerDuty

/-- A duty of the host is broken: the shadow stops being valid (R172, R224). -/
def Display.lose (x : Display) : Display := { x with shadow := .lost }

/-- The host issues a request: "after a CLEAR request returns, and after a CREATE returns, let `T_CLEAR_EXEC` pass
before the next request" (R224); before a CREATE also `T_POWER_ON` (R227). -/
def Display.requested (create : Bool) (x : Display) : Display :=
  if x.clearDuty = 0 ∧ (create = true → x.powerDuty = 0) then x else x.lose

/-- A latch that arrives while a duty is outstanding, whoever sent it, loses the shadow (R224, R227). -/
def Display.arrive (x : Display) : Display :=
  if x.clearDuty = 0 ∧ x.powerDuty = 0 then x else x.lose

/-- The display latches a nibble: the high one is held, the low one completes the frame (R46, R167). -/
def Display.latch (env : Env P) (m : Sample) (x : Display) : Display :=
  match x.half with
  | none => { x.arrive with half := some m }
  | some hi => x.arrive.frame env (frameOf hi m)

/-- The host lets at least `us` microseconds pass between two requests (R19, R224, R227). -/
def Display.elapse (us : Nat) (x : Display) : Display :=
  { x with clearDuty := x.clearDuty - us, powerDuty := x.powerDuty - us }

/-- A CREATE has returned (R172). -/
def Display.created (x : Display) : Display := { x with shadow := x.shadow.created }

/-- The receiver's view after an event, under the wiring that holds while it is performed (R166, R214). -/
def Display.after [DecidableEq P] (env : Env P) (wiring : Option (EngineConfig P)) (out : Latches P) (e : Event P)
    (x : Display) : Display :=
  match wiring with
  | some c => if isFallingEdge c out e then x.latch env (sampleOf c out) else x
  | none => x

/-- The cell shown at row `r`, column `col` of a panel with configuration `c`: `ddram[col + ROW_OFFSET[r]]` within
the configured geometry (R179). DESIGN CHOICE (log entry 27): R179 says this of panels the fixed table fits (R50); the
model answers by the same formula for every configuration, also for a panel the table does not fit (16x4), and reads
BLANK where `col + ROW_OFFSET[r]` is past 0x7F or outside the valid ranges. Unsafe for such panels. -/
def Display.visible (env : Env P) (c : EngineConfig P) (r : Fin 4) (col : Nat) (x : Display) : Option Byte :=
  match x.shadow with
  | .known ddram _ =>
      if r.val < c.rows.toNat ∧ col < c.columns then
        some (Memory.read env.blank (col + rowOffset r) ddram)
      else none
  | .unknown => none
  | .cleared => none
  | .lost => none

end Sys2Proof.Machine
end

