-- ==== Sys2Proof/Machine/Events.lean ====
section
/-! DEFINITION. The event lists: every byte the engine sends leaves through one transfer (R40), and every operation
is a list of events (R6). -/

namespace Sys2Proof.Machine

/-! The pin identifiers are a type parameter (R10). -/
variable {P : Type}

/-- PULSE (R145). -/
def pulseEvents (c : EngineConfig P) : List (Event P) :=
  [.wr c.en .low, .sleep tPulse, .wr c.en .high, .sleep tPulse, .wr c.en .low, .sleep tPulse]

/-- NIBBLE (R134): the four data pins in ascending index (log entry 10). -/
def nibbleEvents (c : EngineConfig P) (n : Nibble) : List (Event P) :=
  [.wr c.d0 (lvl (n.getLsbD 0)), .wr c.d1 (lvl (n.getLsbD 1)), .wr c.d2 (lvl (n.getLsbD 2)),
    .wr c.d3 (lvl (n.getLsbD 3))]

/-- The init delay: no event where there is none (R133). -/
def initDelayEvents : Option Nat → List (Event P)
  | some t => [.sleep t]
  | none => []

/-- WRITE8 (R132), the seven steps in order. -/
def write8Events (c : EngineConfig P) (v : Byte) (rsFlag : Bool) (settle : Nat) (initDelay : Option Nat) :
    List (Event P) :=
  [.sleep settle, .wr c.rs (lvl rsFlag)] ++ nibbleEvents c (highNibble v) ++ pulseEvents c ++
    initDelayEvents initDelay ++ nibbleEvents c (lowNibble v) ++ pulseEvents c

/-- A command transfer of the ordinary kind: settle 50, no init delay (R131). -/
def commandEvents (c : EngineConfig P) (v : Byte) : List (Event P) := write8Events c v false tSettle none

/-- Frame RAW_INIT1 (R74). -/
def rawInit1Events (c : EngineConfig P) : List (Event P) := write8Events c rawInit1Value false tSettle (some tInit1)

/-- Frame RAW_INIT2 (R75). -/
def rawInit2Events (c : EngineConfig P) : List (Event P) := write8Events c rawInit2Value false tSettle (some tInit2)

/-- Frame DISPLAYCONTROL (R76). -/
def displaycontrolEvents (env : Env P) (c : EngineConfig P) : List (Event P) :=
  commandEvents c (displayControlByte env.k)

/-- Frame FUNCTIONSET (R77). -/
def functionsetEvents (env : Env P) (c : EngineConfig P) : List (Event P) := commandEvents c (functionSetByte env.k)

/-- Frame ENTRYMODESET (R78). -/
def entrymodesetEvents (env : Env P) (c : EngineConfig P) : List (Event P) := commandEvents c (entryModeByte env.k)

/-- Frame CLEARDISPLAY (R79). -/
def cleardisplayEvents (env : Env P) (c : EngineConfig P) : List (Event P) := commandEvents c env.k.clearDisplay

/-- Frame SETDDRAMADDR (R80). -/
def setddramaddrEvents (env : Env P) (c : EngineConfig P) (addr : Nat) : List (Event P) :=
  commandEvents c (setDdramByte env.k addr)

/-- Frame DATA (R81): a data transfer of `trunc8(ord(c))`. -/
def dataEvents (c : EngineConfig P) (code : Nat) : List (Event P) := write8Events c (trunc8 code) true tSettle none

/-- CLEAR (R105). -/
def clearEvents (env : Env P) (c : EngineConfig P) : List (Event P) := cleardisplayEvents env c

/-- SETCURSOR for `row >= 0` (R121). -/
def setcursorEvents (env : Env P) (c : EngineConfig P) (col row : Nat) : List (Event P) :=
  setddramaddrEvents env c (cursorAddr c.rows col row)

/-- PRINT from a given value of its row counter (R111). -/
def printEvents (env : Env P) (c : EngineConfig P) (row : Nat) : List Nat → List (Event P)
  | [] => []
  | code :: rest =>
      if isNewline env code then setcursorEvents env c 0 (row + 1) ++ printEvents env c (row + 1) rest
      else dataEvents c code ++ printEvents env c row rest

/-- CREATE step 1: the six pins in setup order (R94, log entry 10). -/
def setupEvents (c : EngineConfig P) : List (Event P) := c.pins.map (fun p => .cfg p .low)

/-- CREATE steps 2 to 7 (R95). -/
def initEvents (env : Env P) (c : EngineConfig P) : List (Event P) :=
  rawInit1Events c ++ rawInit2Events c ++ displaycontrolEvents env c ++ functionsetEvents env c ++
    entrymodesetEvents env c ++ clearEvents env c

/-- CREATE, all seven steps (R95). -/
def createEvents (env : Env P) (c : EngineConfig P) : List (Event P) := setupEvents c ++ initEvents env c

end Sys2Proof.Machine
end

