-- ==== Sys2Proof/Machine/Ops.lean ====
section
/-! DEFINITION. The named operations over State: performing an event (R30), taking an error or a refusal (R186),
completing a request (R39, R96), and what requests and internal operations share. -/

namespace Sys2Proof.Machine

/-! The pin identifiers are a type parameter (R10). -/
variable {P : Type}

/-- The configuration the operations read: during CREATE its operand "as if it were `cfg`", else `cfg` (R92). -/
def State.wiring (s : State P) : Option (EngineConfig P) :=
  match s.inFlight with
  | some (.create c) => some c
  | some .command => s.cfg
  | none => s.cfg

/-- The instructions that perform a list of events. -/
def calls (events : List (Event P)) : List (Instr P) := events.map Event.toInstr

/-- A result is handed to the host (R38). -/
def State.deliver (r : Result P) (s : State P) : State P := { s with results := s.results ++ [r] }

/-- TAKING AN EXCEPTION: `raise E(info)`, and `refuse E`, which is the same where nothing has been emitted (R186,
R196): the request stops, nothing stays pending, what was performed stays, the code goes to the host. There is no
handler, no saved context and no return operation: the engine is idle again (R193). -/
def State.raise (r : Result P) (s : State P) : State P :=
  { s with pending := [], inFlight := none, results := s.results ++ [r] }

/-- The completion of a request once nothing is pending (R39); of a CREATE also `cfg <- c`, `phase <- READY` (R96), and
the display shadow is valid from here (R172). -/
def State.settle (s : State P) : State P :=
  match s.pending with
  | _ :: _ => s
  | [] =>
      match s.inFlight with
      | none => s
      | some .command => { s with inFlight := none, results := s.results ++ [.success] }
      | some (.create c) =>
          { s with
            phase := .ready
            cfg := some c
            inFlight := none
            results := s.results ++ [.success]
            display := s.display.created }

/-- The host resets the engine (R210): the state of R35, no event. The display is not reset (R211): what the host owes
it stays owed, but nothing of its contents is known until a CREATE's clear has been sent, and its nibbles are paired
from here. The results delivered, the host's moves and the parameters are no engine state (log entry 14). -/
def State.resetEngine (s : State P) : State P :=
  { State.init s.env s.host with
    results := s.results
    display := { s.display with half := none, shadow := .unknown } }

/-- Perform `e` through the collaborator: its effect on the latches, the receiver's view, the trace (R24, R30). -/
def State.perform [DecidableEq P] (e : Event P) (s : State P) : State P :=
  { s with
    out := s.out.after e
    display := s.display.after s.env s.wiring s.out e
    trace := s.trace ++ [e] }

/-- All of a list, in order. -/
def State.performAll [DecidableEq P] (events : List (Event P)) (s : State P) : State P :=
  events.foldl (fun t e => t.perform e) s

/-- `call OP`: the events of an operation take its place, before what is already pending (R17, R25). -/
def State.call (events : List (Event P)) (s : State P) : State P := { s with pending := calls events ++ s.pending }

/-- A request is accepted with its event list (R25, R28); an empty one completes at once. -/
def State.accept (f : InFlight P) (events : List (Event P)) (s : State P) : State P :=
  ({ s with pending := calls events, inFlight := some f }).settle

/-- A request is taken only when nothing is pending (R39). -/
def State.whenIdle (s : State P) (answer : Host.Outcome (State P) Fault Refusal) :
    Host.Outcome (State P) Fault Refusal :=
  match s.pending with
  | [] => answer
  | _ :: _ => .refused .portClosed

/-- CLEAR, PRINT and SETCURSOR: refused in UNINIT (R190), else served with the configuration. -/
def State.whenReady (s : State P) (serve : EngineConfig P → State P) : Host.Outcome (State P) Fault Refusal :=
  s.whenIdle
    (match s.phase, s.cfg with
      | .uninit, _ => .next (s.raise .notInitialized)
      | .ready, some c => .next (serve c)
      | .ready, none => .fault .noConfiguration)

/-- An internal operation or frame: its events are called with the configuration the operations read. -/
def State.callWith (s : State P) (events : EngineConfig P → List (Event P)) :
    Host.Outcome (State P) Fault Refusal :=
  match s.wiring with
  | some c => .next (s.call (events c))
  | none => .fault .noConfiguration

end Sys2Proof.Machine
end

