-- ==== Sys2Proof/Machine/Frames.lean ====
section
/-! DEFINITION. The bus frames (space `bus_frame`): each emitted frame is one transfer (R72, R74 to R81); the three
never-emitted ones have no effect given (R73). -/

namespace Sys2Proof.Machine

/-! The pin identifiers are a type parameter (R10). -/
variable {P : Type}

/-- RAW_INIT1 (R74). -/
def execRawInit1 (s : State P) : Host.Outcome (State P) Fault Refusal := s.callWith rawInit1Events

/-- RAW_INIT2 (R75). -/
def execRawInit2 (s : State P) : Host.Outcome (State P) Fault Refusal := s.callWith rawInit2Events

/-- DISPLAYCONTROL (R76). -/
def execDisplaycontrol (s : State P) : Host.Outcome (State P) Fault Refusal := s.callWith (displaycontrolEvents s.env)

/-- FUNCTIONSET (R77). -/
def execFunctionset (s : State P) : Host.Outcome (State P) Fault Refusal := s.callWith (functionsetEvents s.env)

/-- ENTRYMODESET (R78). -/
def execEntrymodeset (s : State P) : Host.Outcome (State P) Fault Refusal := s.callWith (entrymodesetEvents s.env)

/-- CLEARDISPLAY (R79). -/
def execCleardisplay (s : State P) : Host.Outcome (State P) Fault Refusal := s.callWith (cleardisplayEvents s.env)

/-- SETDDRAMADDR (R80). -/
def execSetddramaddr (addr : Nat) (s : State P) : Host.Outcome (State P) Fault Refusal :=
  s.callWith fun c => setddramaddrEvents s.env c addr

/-- DATA (R81). -/
def execData (code : Nat) (s : State P) : Host.Outcome (State P) Fault Refusal :=
  s.callWith fun c => dataEvents c code

/-- RETURNHOME: "no rule gives them an effect" (R73). -/
def execReturnhome (_x : Bool) (_s : State P) : Host.Outcome (State P) Fault Refusal :=
  .refused (.neverEmitted "RETURNHOME")

/-- CURSORSHIFT: "no rule gives them an effect" (R73). -/
def execCursorshift (_sBit _rBit : Bool) (_xx : BitVec 2) (_s : State P) : Host.Outcome (State P) Fault Refusal :=
  .refused (.neverEmitted "CURSORSHIFT")

/-- SETCGRAMADDR: "no rule gives them an effect" (R73). -/
def execSetcgramaddr (_addr : BitVec 6) (_s : State P) : Host.Outcome (State P) Fault Refusal :=
  .refused (.neverEmitted "SETCGRAMADDR")

end Sys2Proof.Machine
end

