-- ==== Sys2Proof/Machine/Gpio.lean ====
section
/-! DEFINITION. The collaborator calls (space `gpio_event`): Cfg, Wr, Sleep. The last pending event completes the
request in progress (R96). -/

namespace Sys2Proof.Machine

/-! The pin identifiers are a type parameter (R10). -/
variable {P : Type}

/-- `Cfg(p, l)` (R150): performed when the platform accepts the pin; else HardwareAccessError(p) is raised and the
failing call is no event (R94, R188). -/
def execCfg [DecidableEq P] (p : P) (l : Level) (s : State P) : Host.Outcome (State P) Fault Refusal :=
  if cfgOk s.env p then .next (s.perform (.cfg p l)).settle
  else .next (s.raise (.hardwareAccessError p))

/-- `Wr(p, l)` (R151); it never fails (R153). -/
def execWr [DecidableEq P] (p : P) (l : Level) (s : State P) : Host.Outcome (State P) Fault Refusal :=
  .next (s.perform (.wr p l)).settle

/-- `Sleep(d)` (R152); it never fails. -/
def execSleep [DecidableEq P] (d : Nat) (s : State P) : Host.Outcome (State P) Fault Refusal :=
  .next (s.perform (.sleep d)).settle

end Sys2Proof.Machine
end

