-- ==== Sys2Proof/Machine/Requests.lean ====
section
/-! DEFINITION. The requests (space `request`): CREATE, CLEAR, PRINT, SETCURSOR and the reserved opcodes. -/

namespace Sys2Proof.Machine

/-! The pin identifiers are a type parameter (R10). -/
variable {P : Type}

/-- CREATE (R95, order of tests R98 and R195): refused when READY, an error when a check fails, else the 140 events
become pending; a pin the platform rejects raises when its `Cfg` is attempted (R94, `execCfg`). -/
def execCreate [DecidableEq P] (config : RawConfig P) (s : State P) : Host.Outcome (State P) Fault Refusal :=
  s.whenIdle
    (match s.phase with
      | .ready => .next (s.raise .alreadyInitialized)
      | .uninit =>
          match configOf config with
          | none => .next (s.raise .configurationError)
          | some c => .next (s.accept (.create c) (createEvents s.env c)))

/-- CLEAR (R105, R106). -/
def execClear (s : State P) : Host.Outcome (State P) Fault Refusal :=
  s.whenReady fun c => s.accept .command (clearEvents s.env c)

/-- One turn of PRINT's loop (R111): a newline steps the row counter and calls SETCURSOR(0, row), any other
character is a data transfer. -/
def State.printChar (c : EngineConfig P) (s : State P) (code : Nat) : State P :=
  if isNewline s.env code then
    let row := s.printRow.getD 0 + 1
    { s with printRow := some row, pending := s.pending ++ calls (setcursorEvents s.env c 0 row) }
  else { s with pending := s.pending ++ calls (dataEvents c code) }

/-- PRINT (R111, R115): the row counter is set to 0, the text expanded first to last, the counter discarded (R26). -/
def execPrint (text : List Nat) (s : State P) : Host.Outcome (State P) Fault Refusal :=
  s.whenReady fun c =>
    let started := { s with printRow := some 0, inFlight := some .command }
    let expanded := text.foldl (State.printChar c) started
    ({ expanded with printRow := none }).settle

/-- SETCURSOR (R121, R124, R125). -/
def execSetcursor (col : Nat) (row : Int) (s : State P) : Host.Outcome (State P) Fault Refusal :=
  s.whenReady fun c =>
    if row < 0 then s.raise (.rowIndexUndefined row)
    else s.accept .command (setcursorEvents s.env c col row.toNat)

/-- A reserved request opcode: refused with UnknownRequest, "no event is emitted and no state changes" (R64, R192). -/
def execReservedRequest (opcode : Byte) (_rest : List Byte) (s : State P) : Host.Outcome (State P) Fault Refusal :=
  s.whenIdle (.next (s.raise (.unknownRequest opcode)))

end Sys2Proof.Machine
end

