-- ==== Sys2Proof/Machine/Transfer.lean ====
section
/-! DEFINITION. The internal primitives (space `internal`): WRITE8, NIBBLE, PULSE. -/

namespace Sys2Proof.Machine

/-! The pin identifiers are a type parameter (R10). -/
variable {P : Type}

/-- WRITE8 (R132). -/
def execWrite8 (v : Byte) (rsFlag : Bool) (settle : Nat) (initDelay : Option Nat) (s : State P) :
    Host.Outcome (State P) Fault Refusal :=
  s.callWith fun c => write8Events c v rsFlag settle initDelay

/-- NIBBLE (R134). -/
def execNibble (n : Nibble) (s : State P) : Host.Outcome (State P) Fault Refusal :=
  s.callWith fun c => nibbleEvents c n

/-- PULSE (R145). -/
def execPulse (s : State P) : Host.Outcome (State P) Fault Refusal := s.callWith pulseEvents

end Sys2Proof.Machine
end

