-- ==== Sys2Proof/Machine/Dispatch.lean ====
section
/-! DEFINITION. One arm per constructor of Instr: the meaning of each. -/

namespace Sys2Proof.Machine

def exec (i : Instr) (s : State) : Host.Outcome State Fault Refusal :=
  match i with
  | .create config => Sys2Proof.Machine.execCreate config s
  | .clear => Sys2Proof.Machine.execClear s
  | .print text => Sys2Proof.Machine.execPrint text s
  | .setcursor col row => Sys2Proof.Machine.execSetcursor col row s
  | .reservedRequest opcode rest => Sys2Proof.Machine.execReservedRequest opcode rest s
  | .rawInit1 => Sys2Proof.Machine.execRawInit1 s
  | .rawInit2 => Sys2Proof.Machine.execRawInit2 s
  | .displaycontrol => Sys2Proof.Machine.execDisplaycontrol s
  | .functionset => Sys2Proof.Machine.execFunctionset s
  | .entrymodeset => Sys2Proof.Machine.execEntrymodeset s
  | .cleardisplay => Sys2Proof.Machine.execCleardisplay s
  | .setddramaddr addr => Sys2Proof.Machine.execSetddramaddr addr s
  | .data code => Sys2Proof.Machine.execData code s
  | .returnhome x => Sys2Proof.Machine.execReturnhome x s
  | .cursorshift sBit rBit xx => Sys2Proof.Machine.execCursorshift sBit rBit xx s
  | .setcgramaddr addr => Sys2Proof.Machine.execSetcgramaddr addr s
  | .write8 v rsFlag settle initDelay => Sys2Proof.Machine.execWrite8 v rsFlag settle initDelay s
  | .nibble n => Sys2Proof.Machine.execNibble n s
  | .pulse => Sys2Proof.Machine.execPulse s
  | .cfg p l => Sys2Proof.Machine.execCfg p l s
  | .wr p l => Sys2Proof.Machine.execWr p l s
  | .sleep d => Sys2Proof.Machine.execSleep d s

end Sys2Proof.Machine
end

