-- ==== Sys2Proof/WellFormed.lean ====
section
/-! DEFINITION. Which instruction terms lie in the operand ranges the spec gives their row: the packet fields of
R62, the operand bits of the frames (R82), the call sites of WRITE8 (R131) and the arguments of the collaborator
calls (R150, R152). -/

namespace Sys2Proof

/-- An optional integer that is present and fits an unsigned 8-bit packet field (R62). -/
def byteField (x : Option Int) : Bool :=
  match x with
  | some v => decide (0 ≤ v) && decide (v < 256)
  | none => false

/-- An optional pin that is present and fits the packet's 8-bit pin field (R62). -/
def pinField (x : Option PinId) : Bool :=
  match x with
  | some p => decide (p.number < 256)
  | none => false

/-- A raw configuration a CREATE packet can carry: no field absent, pins, count and geometry of 8 bits (R62). -/
def RawConfig.wellFormed (c : RawConfig) : Bool :=
  pinField c.rs && pinField c.en && byteField c.columns && byteField c.rows &&
    match c.dataPins with
    | some ps => decide (ps.length < 256) && ps.all (fun p => decide (p.number < 256))
    | none => false

/-- The operand ranges of an instruction, row by row. -/
def Instr.wellFormed : Instr → Bool
  | .create config => config.wellFormed
  | .clear => true
  | .print text => decide (text.length < 65536) && text.all (fun c => decide (c < 4294967296))
  | .setcursor col row => decide (col < 65536) && decide (-32768 ≤ row) && decide (row < 32768)
  | .reservedRequest opcode _ => decide (4 ≤ opcode.toNat)
  | .rawInit1 => true
  | .rawInit2 => true
  | .displaycontrol => true
  | .functionset => true
  | .entrymodeset => true
  | .cleardisplay => true
  | .setddramaddr addr => decide (addr < 128)
  | .data code => decide (code < 256)
  | .returnhome _ => true
  | .cursorshift _ _ _ => true
  | .setcgramaddr _ => true
  | .write8 _ _ settle initDelay =>
      decide (settle = 50) &&
        (decide (initDelay = none) || decide (initDelay = some 4100) || decide (initDelay = some 100))
  | .nibble _ => true
  | .pulse => true
  | .cfg _ l => decide (l = .low)
  | .wr _ _ => true
  | .sleep d => decide (d = 50) || decide (d = 1) || decide (d = 4100) || decide (d = 100)

/-- `i` is well formed. -/
abbrev WellFormed (i : Instr) : Prop := i.wellFormed = true

end Sys2Proof
end

