-- ==== Sys2Proof/Decode.lean ====
section
/-! DEFINITION. The decoders of the two encoding spaces, total and rejecting by name, the encoder, and the host's
view of the table's words (R62 to R65, R82). -/

namespace Sys2Proof

/-- What a decoder answers. -/
inductive Decoded (P : Type := PinId) where
  /-- The instruction read. -/
  | ok (i : Instr P)
  /-- The packet is shorter or longer than its layout (R65). -/
  | malformed
  /-- The frame is none of the table's patterns: not one the engine emits (R82). -/
  | unknownFrame
  deriving DecidableEq, Repr

/-! ### Field helpers -/

/-- A 16-bit little-endian field (R62: low byte first). -/
def le16 (lo hi : Byte) : Nat := lo.toNat + 256 * hi.toNat

/-- A 32-bit little-endian field. -/
def le32 (b0 b1 b2 b3 : Byte) : Nat := le16 b0 b1 + 65536 * le16 b2 b3

/-- `sext` of a 16-bit field (R14, R62). -/
def sext16 (n : Nat) : Int := if n < 32768 then (n : Int) else (n : Int) - 65536

/-- Byte `k` of a natural number, `k = 0` the lowest. -/
def byteOf (k n : Nat) : Byte := BitVec.ofNat 8 (n / 256 ^ k)

/-- The 16-bit two's-complement field that holds `row`. -/
def field16 (row : Int) : Nat := (row % 65536).toNat

/-! ### Packets -/

/-- The pin a packet's byte names (R62): the 8-bit number of R10. -/
def packetPin (b : Byte) : PinId := ⟨b.toNat⟩

/-- The characters of a PRINT packet, four bytes each, low byte first. -/
def decodeChars : List Byte → Option (List Nat)
  | [] => some []
  | b0 :: b1 :: b2 :: b3 :: rest => (decodeChars rest).map (le32 b0 b1 b2 b3 :: ·)
  | _ => none

/-- CREATE after byte 0: `rs en n pin[0..n-1] columns rows` (R62). -/
def decodeCreate : List Byte → Decoded
  | rs :: en :: n :: rest =>
      match rest.drop n.toNat with
      | [columns, rows] =>
          .ok (.create
            { rs := some (packetPin rs)
              en := some (packetPin en)
              dataPins := some ((rest.take n.toNat).map packetPin)
              columns := some (columns.toNat : Int)
              rows := some (rows.toNat : Int) })
      | _ => .malformed
  | _ => .malformed

/-- CLEAR after byte 0: nothing (R62). -/
def decodeClear : List Byte → Decoded
  | [] => .ok .clear
  | _ => .malformed

/-- PRINT after byte 0: `len` and then exactly `len` characters (R62). -/
def decodePrint : List Byte → Decoded
  | lo :: hi :: rest =>
      match decodeChars rest with
      | some text => if text.length = le16 lo hi then .ok (.print text) else .malformed
      | none => .malformed
  | _ => .malformed

/-- SETCURSOR after byte 0: `col` unsigned, `row` signed (R62). -/
def decodeSetcursor : List Byte → Decoded
  | [c0, c1, r0, r1] => .ok (.setcursor (le16 c0 c1) (sext16 (le16 r0 r1)))
  | _ => .malformed

/-- A request packet: byte 0 fixes the layout of the rest (R62, R63). An empty packet is too short for any layout. -/
def decodePacket : List Byte → Decoded
  | [] => .malformed
  | opcode :: rest =>
      match opcode.toNat with
      | 0 => decodeCreate rest
      | 1 => decodeClear rest
      | 2 => decodePrint rest
      | 3 => decodeSetcursor rest
      | _ => .ok (.reservedRequest opcode rest)

/-! ### Frames -/

/-- A command frame whose bit 7 is clear, by its whole byte `v`: first the bytes the engine emits, then the three
instruction classes it never emits (R67, R73, R82). -/
def decodeCommand (v : Nat) : Decoded :=
  if v = 0x33 then .ok .rawInit1
  else if v = 0x32 then .ok .rawInit2
  else if v = 0x0C then .ok .displaycontrol
  else if v = 0x28 then .ok .functionset
  else if v = 0x06 then .ok .entrymodeset
  else if v = 0x01 then .ok .cleardisplay
  else if v / 2 = 1 then .ok (.returnhome (decide (v % 2 = 1)))
  else if v / 16 = 1 then
    .ok (.cursorshift (decide (v / 8 % 2 = 1)) (decide (v / 4 % 2 = 1)) (BitVec.ofNat 2 v))
  else if v / 64 = 1 then .ok (.setcgramaddr (BitVec.ofNat 6 v))
  else .unknownFrame

/-- A bus frame `rs * 256 + v`: "a decoder tests register select first, then bit 7, then the whole byte" (R82). -/
def decodeFrame (w : BitVec 9) : Decoded :=
  let v := w.toNat % 256
  if w.toNat / 256 = 1 then .ok (.data v)
  else if v / 128 = 1 then .ok (.setddramaddr (v % 128))
  else decodeCommand v

/-- Decoding of either form. -/
def decode : Code → Decoded
  | .packet bytes => decodePacket bytes
  | .frame w => decodeFrame w

/-! ### The encoder -/

/-- The packet of one character code (R62). -/
def encodeChar (c : Nat) : List Byte := [byteOf 0 c, byteOf 1 c, byteOf 2 c, byteOf 3 c]

/-- The packet byte of an optional integer field; an absent field cannot be expressed (R62), and a packet of one
is never asked for a well-formed instruction. -/
def encodeInt (x : Option Int) : Byte := BitVec.ofNat 8 (x.getD 0).toNat

/-- The packet byte of a pin (R62). -/
def pinByte (p : PinId) : Byte := BitVec.ofNat 8 p.number

/-- The packet byte of an optional pin. -/
def encodePin (x : Option PinId) : Byte := (x.map pinByte).getD 0

/-- The packet of a CREATE (R62). -/
def encodeCreate (c : RawConfig) : List Byte :=
  let pins := c.dataPins.getD []
  [0x00, encodePin c.rs, encodePin c.en, BitVec.ofNat 8 pins.length] ++
    pins.map pinByte ++ [encodeInt c.columns, encodeInt c.rows]

/-- The word of a well-formed instruction, from the tables of R62 and R82; none for the rows that have no bit
pattern (spaces `internal` and `gpio_event`). -/
def encode : Instr → Option Code
  | .create config => some (.packet (encodeCreate config))
  | .clear => some (.packet [0x01])
  | .print text =>
      some (.packet ([0x02, byteOf 0 text.length, byteOf 1 text.length] ++ text.flatMap encodeChar))
  | .setcursor col row =>
      some (.packet [0x03, byteOf 0 col, byteOf 1 col, byteOf 0 (field16 row), byteOf 1 (field16 row)])
  | .reservedRequest opcode rest => some (.packet (opcode :: rest))
  | .rawInit1 => some (.frame 0x033)
  | .rawInit2 => some (.frame 0x032)
  | .displaycontrol => some (.frame 0x00C)
  | .functionset => some (.frame 0x028)
  | .entrymodeset => some (.frame 0x006)
  | .cleardisplay => some (.frame 0x001)
  | .setddramaddr addr => some (.frame (BitVec.ofNat 9 (0x080 + addr)))
  | .data code => some (.frame (BitVec.ofNat 9 (0x100 + code)))
  | .returnhome x => some (.frame (BitVec.ofNat 9 (0x002 + x.toNat)))
  | .cursorshift s r xx => some (.frame (BitVec.ofNat 9 (0x010 + 8 * s.toNat + 4 * r.toNat + xx.toNat)))
  | .setcgramaddr addr => some (.frame (BitVec.ofNat 9 (0x040 + addr.toNat)))
  | .write8 _ _ _ _ => none
  | .nibble _ => none
  | .pulse => none
  | .cfg _ _ => none
  | .wr _ _ => none
  | .sleep _ => none

/-! ### The table's words, as the host numbers them -/

/-- The shortest packet whose byte 0 is `b` and whose operand bytes are all zero. -/
def zeroPacket (b : Byte) : List Byte :=
  match b.toNat with
  | 0 => [b, 0, 0, 0, 0, 0]
  | 1 => [b]
  | 2 => [b, 0, 0]
  | 3 => [b, 0, 0, 0, 0]
  | _ => [b]

/-- The encoded form of a table word: a row of at most one byte is a request packet (matched on byte 0), a row of
two bytes a bus frame (matched on nine bits, R82). -/
def tableCode (nbits w : Nat) : Option Code :=
  if nbits = 0 then none
  else if nbits ≤ 8 then
    if w < 256 then some (.packet (zeroPacket (BitVec.ofNat 8 w))) else none
  else if nbits ≤ 16 then
    if w < 512 then some (.frame (BitVec.ofNat 9 w)) else none
  else none

/-- The instruction this decoder reads from a table word (none where it refuses). -/
def decodeTableWord (nbits w : Nat) : Option Instr :=
  match tableCode nbits w with
  | some code =>
      match decode code with
      | .ok i => some i
      | .malformed => none
      | .unknownFrame => none
  | none => none

end Sys2Proof
end

