-- ==== Sys2Proof/Machine/Fetch.lean ====
section
/-! DEFINITION. What the machine does next: the head of `pending` while it is busy (R30), the host's next move when
it is idle (R39); and where the host's checks place an instruction. -/

namespace Sys2Proof.Machine

/-! The pin identifiers are a type parameter (R10). -/
variable {P : Type}

/-- What a step fetches. -/
inductive Fetched (P : Type := PinId) where
  /-- Run `i` from `s`. -/
  | run (i : Instr P) (s : State P)
  /-- Nothing to run; the machine moves to `s`. -/
  | done (s : State P)
  deriving DecidableEq, Repr

/-- Whether an instruction is a CREATE request. -/
def isCreate (i : Instr P) : Bool :=
  match i with
  | .create _ => true
  | _ => false

/-- The host has issued a request, a CREATE or another: it is off the request port, and the host has kept its duties
towards the display, or broken one (R224, R227). The engine cannot tell and acts the same. -/
def State.issue (create : Bool) (moves : List (HostMove P)) (s : State P) : State P :=
  { s with host := moves, display := s.display.requested create }

/-- The next thing to do, packets read by `decode`. Busy: the first pending instruction, taken off the list (R30). Idle:
the host's next move (R38, R39): a packet is decoded before anything else is tested (R195), a malformed one is refused
(R65, R192); a wait lets time pass; a reset puts the state of R35; with no move left the engine stays idle, it has no
step of its own (R30, R232, log entry 11). -/
def State.fetchWith (decode : List Byte → Decoded P) (s : State P) : Fetched P :=
  match s.pending with
  | i :: rest => .run i { s with pending := rest }
  | [] =>
      match s.host with
      | [] => .done s
      | .wait us :: moves => .done { s with host := moves, display := s.display.elapse us }
      | .reset :: moves => .done { s with host := moves }.resetEngine
      | .request r :: moves => .run r.toInstr (s.issue (isCreate r.toInstr) moves)
      | .packet bytes :: moves =>
          match decode bytes with
          | .ok i => .run i (s.issue (isCreate i) moves)
          | .malformed => .done ((s.issue false moves).raise .malformedRequest)
          | .unknownFrame => .done ((s.issue false moves).raise .malformedRequest)

/-- The next thing to do, packets read as R62 lays them out. -/
def State.fetch (s : State) : Fetched := s.fetchWith decodePacket

/-- The spec's example configuration C16x2 (R101). -/
def exampleConfig : EngineConfig where
  rs := ⟨25⟩
  en := ⟨24⟩
  d0 := ⟨23⟩
  d1 := ⟨17⟩
  d2 := ⟨27⟩
  d3 := ⟨22⟩
  columns := 16
  rows := .two

/-- A state in which the pins are named: a frame exists only after CREATE has named them, so where no configuration
is in force the example one is put there (log entry 12). -/
def State.wired (s : State) : State :=
  match s.wiring with
  | some _ => s
  | none => { s with phase := .ready, cfg := some exampleConfig }

/-- `s` with a table word placed where the next step takes its instruction: a packet on the request port of an idle
engine, a frame at the head of `pending`. A word no row of the table has changes nothing. -/
def State.place (s : State) (nbits w : Nat) : State :=
  match tableCode nbits w with
  | some (.packet bytes) => { s with pending := [], host := .packet bytes :: s.host }
  | some (.frame f) =>
      match decodeFrame f with
      | .ok i => { s.wired with pending := i :: s.pending }
      | .malformed => s
      | .unknownFrame => s
  | none => s

end Sys2Proof.Machine
end

