-- ==== Sys2Proof/Machine/BigStep.lean ====
section
/-! DEFINITION. The big-step reading of R6: each accepted request maps, by a pure function of the request, the
configuration and the platform oracle, to a finite list of events and a result. It is normative; `step` is its
unfolding. -/

namespace Sys2Proof.Machine

/-! The pin identifiers are a type parameter (R10). -/
variable {P : Type}

/-- What a request does: its events, its result, and for a CREATE that passes its checks the configuration it
works with. -/
structure Plan (P : Type := PinId) where
  events : List (Event P)
  result : Result P
  creates : Option (EngineConfig P)
  deriving DecidableEq, Repr

/-- The first pin in setup order that the platform rejects (R94). -/
def firstRejected [DecidableEq P] (env : Env P) (pins : List P) : Option P := pins.find? (fun p => !cfgOk env p)

/-- The `Cfg` events that succeed before it (R94). -/
def acceptedSetup [DecidableEq P] (env : Env P) (pins : List P) : List (Event P) :=
  (pins.takeWhile (fun p => cfgOk env p)).map (fun p => .cfg p .low)

/-- The events and the result of a CREATE with configuration `c` (R95, R98). -/
def planCreate [DecidableEq P] (env : Env P) (c : EngineConfig P) : Plan P :=
  match firstRejected env c.pins with
  | none => { events := createEvents env c, result := .success, creates := some c }
  | some p => { events := acceptedSetup env c.pins, result := .hardwareAccessError p, creates := some c }

/-- A request that emits nothing. -/
def Plan.nothing (r : Result P) : Plan P where
  events := []
  result := r
  creates := none

/-- A completed request of a READY engine. -/
def Plan.success (events : List (Event P)) : Plan P where
  events := events
  result := .success
  creates := none

/-- The function of R6, with the tests in the order of R195. -/
def plan [DecidableEq P] (env : Env P) (phase : Phase) (cfg : Option (EngineConfig P)) (r : Request P) : Plan P :=
  match r, phase, cfg with
  | .create _, .ready, _ => Plan.nothing .alreadyInitialized
  | .create config, .uninit, _ =>
      match configOf config with
      | none => Plan.nothing .configurationError
      | some c => planCreate env c
  | .clear, .ready, some c => Plan.success (clearEvents env c)
  | .print text, .ready, some c => Plan.success (printEvents env c 0 text)
  | .setcursor col row, .ready, some c =>
      if row < 0 then Plan.nothing (.rowIndexUndefined row) else Plan.success (setcursorEvents env c col row.toNat)
  | .clear, _, _ => Plan.nothing .notInitialized
  | .print _, _, _ => Plan.nothing .notInitialized
  | .setcursor _ _, _, _ => Plan.nothing .notInitialized

/-- The state an idle engine is in when a request has returned: its events performed under the configuration in
force, its result delivered, and after a successful CREATE `cfg` and `phase` written (R96) and the display shadow
valid (R172). -/
def State.bigStep [DecidableEq P] (r : Request P) (s : State P) : State P :=
  let p := plan s.env s.phase s.cfg r
  let performed := ({ s with inFlight := p.creates.map InFlight.create }).performAll p.events
  let returned := ({ performed with inFlight := none }).deliver p.result
  match p.creates, p.result with
  | some c, .success => { returned with phase := .ready, cfg := some c, display := returned.display.created }
  | _, _ => returned

end Sys2Proof.Machine
end

