-- ==== Sys2Proof/Machine/Run.lean ====
section
/-! DEFINITION. A run of several steps (R6, R232), as `Host.Core.run` makes it but over the model's own types. -/

namespace Sys2Proof.Machine

/-- `k` steps, stopping at the first fault or refusal. -/
def State.run : Nat → State → Host.Outcome State Fault Refusal
  | 0, s => .next s
  | k + 1, s =>
      match step s with
      | .next t => State.run k t
      | .fault r => .fault r
      | .refused r => .refused r

end Sys2Proof.Machine
end

