-- ==== Sys2Proof/Safety.lean ====
section
/-! DEFINITION. What a run can rely on: the invariant every step keeps, and the named premises of
spec/92_eei_decisions.md. Two of them, WritesSucceed and PinsExclusive, are built into the machine: `execWr` and
`execSleep` cannot fail, and no move of the host touches a pin (R153, R226). -/

namespace Sys2Proof.Machine

/-- The invariants of R21 on a configuration: pins pairwise distinct, `columns >= 1` (`rows` is 1 to 4 by its type). -/
def EngineConfig.Ok (c : EngineConfig) : Prop := allDistinct c.pins = true ∧ 1 ≤ c.columns

/-- An event the engine performs with configuration `c`: a `Cfg` or `Wr` on one of its six pins, a `Cfg` only with
level LOW, or a `Sleep` of 50, 1, 4100 or 100 (R150, R151, R152). -/
def Event.Of (c : EngineConfig) : Event → Prop
  | .cfg p l => p ∈ c.pins ∧ l = .low
  | .wr p _ => p ∈ c.pins
  | .sleep d => d = 50 ∨ d = 1 ∨ d = 4100 ∨ d = 100

/-- What holds in every state of a run. -/
structure State.Inv (s : State) : Prop where
  /-- READY means configured (R23). -/
  ready_iff : s.phase = .ready ↔ s.cfg.isSome = true
  /-- The configuration in force satisfies the invariants of R21. -/
  config_ok : ∀ c, s.wiring = some c → c.Ok
  /-- A CREATE is in progress only in UNINIT (R23, R99). -/
  creating : ∀ c, s.inFlight = some (.create c) → s.phase = .uninit
  /-- Another request is in progress only in READY (R190). -/
  serving : s.inFlight = some .command → s.phase = .ready
  /-- Nothing pending, nothing in progress (R39). -/
  idle : s.pending = [] → s.inFlight = none
  /-- Only the engine's own events are pending (R25). -/
  pending_events : ∃ events, s.pending = calls events ∧
    ∀ e ∈ events, ∃ c, s.wiring = some c ∧ Event.Of c e
  /-- A `Cfg` is pending only while a CREATE is in progress (R150). -/
  configuring : ∀ p l, Instr.cfg p l ∈ s.pending → ∃ c, s.inFlight = some (.create c)
  /-- The row counter is discarded (R26). -/
  print_row : s.printRow = none
  /-- No pin is listed twice in the latches. -/
  latches_wf : Latches.wf s.out = true
  /-- The latches are what the trace has driven (R24, R27). -/
  latches_trace : s.out = Latches.afterAll s.trace []
  /-- The display shadow is known only from the end of a successful CREATE (R172). -/
  display_valid : ∀ ddram ac, s.display.shadow = .known ddram ac → s.phase = .ready
  /-- DDRAM is in canonical form. -/
  ddram_wf : ∀ ddram ac, s.display.shadow = .known ddram ac → Memory.wf s.env.blank ddram = true

/-- Whatever is still pending, once it is performed the enable line is LOW: the invariant behind "in every reachable
state, enable is already LOW" when a PULSE begins (R146). -/
def State.EnableQuiet (s : State) : Prop :=
  ∀ c events, s.wiring = some c → s.pending = calls events →
    (Latches.afterAll events s.out).get c.en = some .low

/-- The engine is idle: nothing pending, no request in progress (R25). -/
abbrev State.Idle (s : State) : Prop := s.pending = [] ∧ s.inFlight = none

/-- The engine is constructed with configuration `c` (R23). -/
abbrev State.ReadyWith (s : State) (c : EngineConfig) : Prop := s.phase = .ready ∧ s.cfg = some c

/-- Premise `PinsOk` (D3): the platform accepts the six pins. -/
def PinsOk (env : Env) (c : EngineConfig) : Prop := ∀ p ∈ c.pins, cfgOk env p = true

/-- Premise `Constants` (D1): the constants have the values of R66. -/
def ConstantsDefault (env : Env) : Prop := env.k = defaultConsts

/-- The shadow parameters have the values of R178. -/
def ShadowDefault (env : Env) : Prop :=
  env.acJumps = defaultEnv.acJumps ∧ env.ddramRanges = defaultEnv.ddramRanges

/-- Premises `ClearSettled` and `PoweredUp` (D17, D18): the host owes the display no more time, and the display awaits a
high nibble. -/
def Display.Settled (x : Display) : Prop := x.clearDuty = 0 ∧ x.powerDuty = 0 ∧ x.half = none

end Sys2Proof.Machine
end

