-- ==== Sys2Proof/Certificates/Slice0/Obligations.lean ====
section
/-! DEFINITION. The statements for the provers. Each says which rule of spec/ it formalises; where a clause rests on
the model's own choice its docstring names the log entry. -/

open Sys2Proof Sys2Proof.Machine

namespace Sys2Proof.Statements

/-- The request `i` is accepted by the idle engine `s` with exactly `events` pending (R25, R28), and one step per
event later it has been served: the latches and the trace are those of the events, success is delivered, and nothing
else of the engine has changed. -/
def Serves (s : State) (i : Instr) (events : List Event) : Prop :=
  exec i s = .next { s with pending := calls events, inFlight := some .command } ∧
  State.run events.length { s with pending := calls events, inFlight := some .command } =
    .next { s with
      out := Latches.afterAll events s.out
      trace := s.trace ++ events
      results := s.results ++ [.success]
      display := (s.performAll events).display }

/-- The operation `i` calls exactly `events` in place, before what is already pending (R17), changing nothing else,
and one step per event later they have been performed and nothing else of the engine has changed, but that where
nothing was pending behind them the request in progress is completed (R96). -/
def Calls (s : State) (i : Instr) (events : List Event) : Prop :=
  exec i s = .next { s with pending := calls events ++ s.pending } ∧
  State.run events.length { s with pending := calls events ++ s.pending } =
    .next ({ s with
      out := Latches.afterAll events s.out
      trace := s.trace ++ events
      display := (s.performAll events).display } : State).settle

/-- The latches after a transfer of `v` with register select `rsFlag` (R37). -/
def TransferLevels (c : EngineConfig) (v : Byte) (rsFlag : Bool) (out : Latches) : Prop :=
  out.get c.rs = some (lvl rsFlag) ∧ out.get c.en = some .low ∧
  out.get c.d0 = some (lvl (v.getLsbD 0)) ∧ out.get c.d1 = some (lvl (v.getLsbD 1)) ∧
  out.get c.d2 = some (lvl (v.getLsbD 2)) ∧ out.get c.d3 = some (lvl (v.getLsbD 3))

/-- The default frames of a text from row counter `row` (R168, last line of its table): newline number `k` gives
`(0, 0x80 | ROW_OFFSET[min(k, c.rows-1)])`, any other character `(1, ord mod 256)`. -/
def printFrames (newline : Nat) (rows : RowCount) (row : Nat) : List Nat → List Frame
  | [] => []
  | code :: rest =>
      if code = newline then
        ⟨false, BitVec.ofNat 8 (0x80 + rowOffset (clampRow rows (row + 1)))⟩ :: printFrames newline rows (row + 1) rest
      else ⟨true, BitVec.ofNat 8 (code % 256)⟩ :: printFrames newline rows row rest

/-- The frames of R69 with the default constants: the command bytes of CREATE, the clear, a set-DDRAM-address byte, or
any data byte. -/
def EngineFrame (f : Frame) : Prop :=
  f.rs = true ∨ f.v ∈ [(0x33 : Byte), 0x32, 0x0C, 0x28, 0x06, 0x01] ∨ 0x80 ≤ f.v.toNat

/-- The state once the host has issued a request: its move is off the request port; where it has let `T_CLEAR_EXEC`
pass since the return of a request that cleared the display (R224), and before a CREATE `T_POWER_ON` since power-up
(R227), nothing else is changed; where it has not, the display shadow stops being valid. -/
def Issued (s : State) (create : Bool) (moves : List HostMove) : State :=
  { s with
    host := moves
    display := { s.display with
      shadow :=
        if s.display.clearDuty = 0 ∧ (create = true → s.display.powerDuty = 0) then s.display.shadow else .lost } }

/-- R94 and R95 written out: the six `Cfg` in setup order, the two raw transfers with their init delays, the three
composed bytes of R68, the clear. -/
def createList (k : Consts) (c : EngineConfig) : List Event :=
  [.cfg c.rs .low, .cfg c.en .low, .cfg c.d0 .low, .cfg c.d1 .low, .cfg c.d2 .low, .cfg c.d3 .low] ++
    write8Events c 0x33 false 50 (some 4100) ++
    write8Events c 0x32 false 50 (some 100) ++
    write8Events c (k.displayControl ||| k.displayOn ||| k.cursorOff ||| k.blinkOff) false 50 none ++
    write8Events c (k.functionSet ||| k.fourBitMode ||| k.twoLine ||| k.fiveByEightDots) false 50 none ++
    write8Events c (k.entryModeSet ||| k.entryLeft ||| k.entryShiftDecrement) false 50 none ++
    write8Events c k.clearDisplay false 50 none

/-- Whether an event is a `Cfg`. -/
def isCfg (e : Event) : Bool :=
  match e with
  | .cfg _ _ => true
  | .wr _ _ => false
  | .sleep _ => false

end Sys2Proof.Statements

open Sys2Proof.Statements

/-! ### Encodings -/

/-- R62: decoding the packet of a well-formed request gives it back, every operand at every value a packet can carry. -/
def Obligations.RequestPacketsRoundTrip : Prop :=
  ∀ (i : Instr) (bytes : List Byte), WellFormed i → encode i = some (.packet bytes) → decodePacket bytes = .ok i

/-- R62, R63: a packet that decodes is the packet of the well-formed instruction it decodes to; no bit is dropped. -/
def Obligations.AcceptedPacketsReencode : Prop :=
  ∀ (bytes : List Byte) (i : Instr), decodePacket bytes = .ok i → WellFormed i ∧ encode i = some (.packet bytes)

/-- R82: decoding the 9-bit number of a well-formed frame gives it back. -/
def Obligations.BusFramesRoundTrip : Prop :=
  ∀ (i : Instr) (w : BitVec 9), WellFormed i → encode i = some (.frame w) → decodeFrame w = .ok i

/-- R82: a frame word that decodes is the word of the frame it decodes to, so the patterns do not overlap. -/
def Obligations.AcceptedFramesReencode : Prop :=
  ∀ (w : BitVec 9) (i : Instr), decodeFrame w = .ok i → WellFormed i ∧ encode i = some (.frame w)

/-- A few words written out from R62 (V-DEC-1, 6, 8, 11, 14, 16) and R82. -/
def Obligations.SpecWordsDecode : Prop :=
  decodePacket [0x00, 0x19, 0x18, 0x04, 0x17, 0x11, 0x1B, 0x16, 0x10, 0x02] =
      .ok (.create ⟨some ⟨25⟩, some ⟨24⟩, some [⟨23⟩, ⟨17⟩, ⟨27⟩, ⟨22⟩], some 16, some 2⟩) ∧
  decodePacket [0x01] = .ok .clear ∧
  decodePacket [0x02, 0x01, 0x00, 0x41, 0x01, 0x00, 0x00] = .ok (.print [0x141]) ∧
  decodePacket [0x03, 0x03, 0x00, 0x01, 0x00] = .ok (.setcursor 3 1) ∧
  decodePacket [0x03, 0x00, 0x00, 0xFF, 0xFF] = .ok (.setcursor 0 (-1)) ∧
  decodePacket [0xFF, 0x00, 0x00] = .ok (.reservedRequest 0xFF [0x00, 0x00]) ∧
  decodeFrame 0b000110011 = .ok .rawInit1 ∧
  decodeFrame 0b011010100 = .ok (.setddramaddr 0x54) ∧
  decodeFrame 0b101000001 = .ok (.data 0x41)

/-- R65: of the packets with an assigned opcode, one that decodes has exactly its layout's length: with any byte added
at its end, or cut anywhere short of it, it is malformed. -/
def Obligations.PacketLengthIsExact : Prop :=
  ∀ (opcode : Byte) (rest : List Byte) (i : Instr), opcode.toNat < 4 → decodePacket (opcode :: rest) = .ok i →
    (∀ extra : List Byte, extra ≠ [] → decodePacket (opcode :: rest ++ extra) = .malformed) ∧
    (∀ k : Nat, k < (opcode :: rest).length → decodePacket ((opcode :: rest).take k) = .malformed)

/-- R65, R192, R195: an idle engine whose host sends a malformed packet delivers MalformedRequest, in either phase;
no event, no other change of the engine; the packet counts as a request for the host's duty of R224 (log entry 22). -/
def Obligations.MalformedPacketRefused : Prop :=
  ∀ (s : State) (bytes : List Byte) (moves : List HostMove), s.Idle → s.host = .packet bytes :: moves →
    decodePacket bytes = .malformed →
    step s = .next { Issued s false moves with results := s.results ++ [.malformedRequest] }

/-- R64: a packet whose byte 0 is 0x04 to 0xFF is refused with UnknownRequest, whatever follows it and in either phase:
no event is emitted and no state changes. -/
def Obligations.ReservedOpcodeRefused : Prop :=
  ∀ (s : State) (opcode : Byte) (rest : List Byte), s.Idle → 4 ≤ opcode.toNat →
    decodePacket (opcode :: rest) = .ok (.reservedRequest opcode rest) ∧
    exec (.reservedRequest opcode rest) s = .next { s with results := s.results ++ [.unknownRequest opcode] }

/-! ### Steps -/

/-- R30, R39: a busy engine runs the head of its pending list; an idle one takes the host's next request, a packet
through the decoder. Around exec the step only takes the instruction off the list it came from, and for a request it
looks at whether the host kept its duties of R224 and R227 towards the display, which the engine cannot tell (log
entry 22). -/
def Obligations.StepRunsDecodedInstruction : Prop :=
  ∀ s : State,
    (∀ i rest, s.pending = i :: rest → step s = exec i { s with pending := rest }) ∧
    (∀ bytes i moves, s.pending = [] → s.host = .packet bytes :: moves → decodePacket bytes = .ok i →
      ((∃ config, i = .create config) → step s = exec i (Issued s true moves)) ∧
      ((∀ config, i ≠ .create config) → step s = exec i (Issued s false moves))) ∧
    (∀ config moves, s.pending = [] → s.host = .request (.create config) :: moves →
      step s = exec (.create config) (Issued s true moves)) ∧
    (∀ r moves, s.pending = [] → s.host = .request r :: moves → (∀ config, r ≠ .create config) →
      step s = exec r.toInstr (Issued s false moves))

/-- R30: the engine's one step while events are pending behind the head: the event is performed, appended to the
trace, taken off the list, its effect applied to the latches; the receiver's view follows; nothing else changes. -/
def Obligations.BusyStepPerformsHead : Prop :=
  ∀ (s : State) (e : Event) (rest : List Instr), s.pending = e.toInstr :: rest → rest ≠ [] →
    (∀ p l, e = .cfg p l → cfgOk s.env p = true) →
    step s = .next { s with
      pending := rest
      trace := s.trace ++ [e]
      out := s.out.after e
      display := s.display.after s.env s.wiring s.out e }

/-- Log entry 11 (the model's choice): with nothing pending and no move of the host left the step changes nothing; a
wait of the host counts towards what R224 and R227 ask it to let pass, and changes nothing else. -/
def Obligations.IdleEngineStays : Prop :=
  ∀ s : State, s.pending = [] →
    (s.host = [] → step s = .next s) ∧
    (∀ us moves, s.host = .wait us :: moves →
      step s = .next { s with
        host := moves
        display := { s.display with
          clearDuty := s.display.clearDuty - us
          powerDuty := s.display.powerDuty - us } })

/-- R35: the reset state, and that the only request it accepts is CREATE. R210, R211: the host's reset of an idle
engine puts that state again, with no event; what the host owes the display stays owed, and nothing else of it is known
any more; the results delivered and the parameters are kept (log entry 14: what is kept is the model's choice).
-/
def Obligations.ResetState : Prop :=
  (∀ (env : Env) (host : List HostMove),
    let s := State.init env host
    s.phase = .uninit ∧ s.cfg = none ∧ (∀ p, s.out.get p = none) ∧ s.pending = [] ∧ s.printRow = none ∧
    s.trace = [] ∧
    (∀ i, i = .clear ∨ (∃ text, i = .print text) ∨ (∃ col row, i = .setcursor col row) →
      exec i s = .next { s with results := [.notInitialized] })) ∧
  (∀ (s : State) (moves : List HostMove), s.pending = [] → s.host = .reset :: moves →
    step s = .next { State.init s.env moves with
      results := s.results
      display := {
        half := none
        shadow := .unknown
        clearDuty := s.display.clearDuty
        powerDuty := s.display.powerDuty } })

/-! ### Invariants -/

/-- The reset state meets the invariant of Safety.lean, and leaves enable quiet. -/
def Obligations.ResetMeetsInvariant : Prop :=
  ∀ (env : Env) (host : List HostMove), (State.init env host).Inv ∧ (State.init env host).EnableQuiet

/-- Every step keeps the invariant (R20 to R27, R39): READY exactly when configured, pins distinct, only the engine's
own events pending, the row counter discarded, the latches those of the trace, no pin listed twice, the display shadow
known only from the end of a successful CREATE (R172), DDRAM in canonical form. -/
def Obligations.StepKeepsInvariant : Prop :=
  ∀ s t : State, s.Inv → step s = .next t → t.Inv

/-- No step of a state that meets the invariant faults or is refused. -/
def Obligations.InvariantStatesNeverStop : Prop :=
  ∀ s : State, s.Inv → ∃ t, step s = .next t

/-- R146: the invariant "what is pending ends with enable LOW" is kept by every step, and so enable is LOW whenever a
READY engine is idle. -/
def Obligations.EnableLowWhenIdle : Prop :=
  (∀ s t : State, s.Inv → s.EnableQuiet → step s = .next t → t.EnableQuiet) ∧
  (∀ (s : State) (c : EngineConfig), s.Inv → s.EnableQuiet → s.pending = [] → s.ReadyWith c →
    s.out.get c.en = some .low)

/-- R27, R30, R31: a step other than the host's reset appends at most one event to the trace, changes the latches only
by that event, delivers at most one result, and never changes a parameter. -/
def Obligations.StepAppendsAtMostOneEvent : Prop :=
  ∀ s t : State, ¬ (s.pending = [] ∧ s.host.head? = some .reset) → step s = .next t →
    ((t.trace = s.trace ∧ t.out = s.out) ∨ ∃ e, t.trace = s.trace ++ [e] ∧ t.out = s.out.after e) ∧
    (t.results = s.results ∨ ∃ r, t.results = s.results ++ [r]) ∧
    t.env = s.env

/-- R21, R23: a READY engine stays READY with the configuration it has, until the host resets it; and a step makes the
engine READY only by performing the last event of a CREATE, whose configuration it then has. -/
def Obligations.ConfigurationWrittenOnlyByCreate : Prop :=
  (∀ s t : State, s.Inv → s.phase = .ready → step s = .next t →
    (t.phase = .ready ∧ t.cfg = s.cfg) ∨
    (s.pending = [] ∧ s.host.head? = some .reset ∧ t.phase = .uninit ∧ t.cfg = none)) ∧
  (∀ s t : State, s.Inv → s.phase = .uninit → step s = .next t → t.phase = .ready →
    ∃ c e, s.inFlight = some (.create c) ∧ s.pending = calls [e] ∧ t.cfg = some c ∧ t.trace = s.trace ++ [e])

/-! ### CREATE -/

/-- R94 to R98: a CREATE whose checks pass and whose pins the platform accepts loads exactly the list of R94 and R95,
and one step per event later the engine is READY with the configuration, the events performed, success delivered, and
nothing else of the engine changed; the display shadow is valid from there (R172). -/
def Obligations.CreateCompletes : Prop :=
  ∀ (s : State) (config : RawConfig) (c : EngineConfig), s.Idle → s.phase = .uninit →
    configOf config = some c → PinsOk s.env c →
    let events := createList s.env.k c
    exec (.create config) s = .next { s with pending := calls events, inFlight := some (.create c) } ∧
    State.run events.length { s with pending := calls events, inFlight := some (.create c) } =
      .next { s with
        phase := .ready
        cfg := some c
        out := Latches.afterAll events s.out
        trace := s.trace ++ events
        results := s.results ++ [.success]
        display := (({ s with inFlight := some (.create c) } : State).performAll events).display.created }

/-- R36, R37: the levels a CREATE leaves on the six pins: those of its last byte, the clear-display instruction; with
the default constant only `d[0]` is HIGH. -/
def Obligations.CreateEndLevels : Prop :=
  ∀ (env : Env) (c : EngineConfig) (out : Latches), c.Ok →
    TransferLevels c env.k.clearDisplay false (Latches.afterAll (createEvents env c) out) ∧
    (ConstantsDefault env →
      let after := Latches.afterAll (createEvents env c) out
      after.get c.rs = some .low ∧ after.get c.en = some .low ∧ after.get c.d0 = some .high ∧
      after.get c.d1 = some .low ∧ after.get c.d2 = some .low ∧ after.get c.d3 = some .low)

/-- R97: the trace of a successful CREATE, the list of R94 and R95, has 140 events, of which 6 are `Cfg`, lasts at
least 4536 microseconds, and depends on the configuration only by the names of its pins. -/
def Obligations.CreateTraceIsFixed : Prop :=
  ∀ (env : Env) (c : EngineConfig),
    createEvents env c = createList env.k c ∧ (createEvents env c).length = 140 ∧
    ((createEvents env c).filter isCfg).length = 6 ∧ time (createEvents env c) = 4536 ∧
    (∀ columns rows, createEvents env { c with columns := columns, rows := rows } = createEvents env c)

/-- R94, R98, R188, R193: with the platform rejecting pin `p` and accepting the pins before it in setup order, CREATE
performs the `Cfg` of exactly those pins and then delivers HardwareAccessError(p); the engine is idle and UNINIT again,
nothing is rolled back, and the failing call is no event. -/
def Obligations.CreateStopsAtRejectedPin : Prop :=
  ∀ (s : State) (config : RawConfig) (c : EngineConfig) (before after : List PinId) (p : PinId),
    s.Idle → s.phase = .uninit → configOf config = some c →
    [c.rs, c.en, c.d0, c.d1, c.d2, c.d3] = before ++ p :: after →
    (∀ q ∈ before, cfgOk s.env q = true) → cfgOk s.env p = false →
    ∃ t, exec (.create config) s = .next t ∧
      State.run (before.length + 1) t = .next { s with
        out := Latches.afterAll (before.map fun q => .cfg q .low) s.out
        trace := s.trace ++ before.map (fun q => .cfg q .low)
        results := s.results ++ [.hardwareAccessError p]
        display := (({ s with inFlight := some (.create c) } : State).performAll
          (before.map fun q => .cfg q .low)).display }

/-- R92, R93: a RawConfig passes the checks exactly when all fields are present, there are four data pins, `columns` is
at least 1, `rows` is 1 to 4 and the six pins are pairwise distinct; and then the configuration holds its fields. -/
def Obligations.ConfigurationChecks : Prop :=
  ∀ (config : RawConfig) (c : EngineConfig), configOf config = some c ↔
    config.rs = some c.rs ∧ config.en = some c.en ∧ config.dataPins = some [c.d0, c.d1, c.d2, c.d3] ∧
    config.columns = some (c.columns : Int) ∧ config.rows = some (c.rows.toNat : Int) ∧
    1 ≤ c.columns ∧ [c.rs, c.en, c.d0, c.d1, c.d2, c.d3].Nodup

/-- R187: a CREATE of an idle UNINIT engine whose configuration fails any check V1 to V6 delivers ConfigurationError
with no event and no other change, whatever the platform says of its pins. -/
def Obligations.BadConfigurationRejected : Prop :=
  ∀ (s : State) (config : RawConfig), s.Idle → s.phase = .uninit →
    (checkV1 config = false ∨ checkV2 config = false ∨ checkV3 config = false ∨ checkV4 config = false ∨
      checkV5 config = false ∨ checkV6 config = false) →
    exec (.create config) s = .next { s with results := s.results ++ [.configurationError] }

/-! ### CLEAR, SETCURSOR, PRINT -/

/-- R190: a CLEAR, PRINT or SETCURSOR request while `phase = UNINIT` is refused with NotInitialized, a SETCURSOR with a
negative row included (R195): no event, no state change. -/
def Obligations.CommandsRefusedBeforeCreate : Prop :=
  ∀ s : State, s.Idle → s.phase = .uninit →
    exec .clear s = .next { s with results := s.results ++ [.notInitialized] } ∧
    (∀ text, exec (.print text) s = .next { s with results := s.results ++ [.notInitialized] }) ∧
    (∀ col row, exec (.setcursor col row) s = .next { s with results := s.results ++ [.notInitialized] })

/-- R105: a CLEAR of an idle READY engine is one command transfer of `K.CLEARDISPLAY`, 22 events and 56 microseconds,
and writes no engine state but the latches, as R37 gives them; with the default constant only `d[0]` is left HIGH. Its
packet is the one byte 0x01. -/
def Obligations.ClearCompletes : Prop :=
  ∀ (s : State) (c : EngineConfig), s.Idle → s.ReadyWith c →
    Serves s .clear (write8Events c s.env.k.clearDisplay false 50 none) ∧
    (write8Events c s.env.k.clearDisplay false 50 none).length = 22 ∧
    time (write8Events c s.env.k.clearDisplay false 50 none) = 56 ∧
    (c.Ok →
      let after := Latches.afterAll (write8Events c s.env.k.clearDisplay false 50 none) s.out
      TransferLevels c s.env.k.clearDisplay false after ∧
      (s.env.k.clearDisplay = 0x01 →
        after.get c.rs = some .low ∧ after.get c.en = some .low ∧ after.get c.d0 = some .high ∧
        after.get c.d1 = some .low ∧ after.get c.d2 = some .low ∧ after.get c.d3 = some .low)) ∧
    decodePacket [0x01] = .ok .clear

/-- R121: a SETCURSOR with `row >= 0` of an idle READY engine is one command transfer of
`trunc8(K.SETDDRAMADDR | (col + ROW_OFFSET[min(row, cfg.rows - 1)]))`, whatever `col` is; `cfg.columns` is not read. -/
def Obligations.SetCursorCompletes : Prop :=
  ∀ (s : State) (c : EngineConfig) (col row : Nat) (clamped : Fin 4), s.Idle → s.ReadyWith c →
    clamped.val = min row (c.rows.toNat - 1) →
    let v := trunc8 (s.env.k.setDdramAddr.toNat ||| (col + rowOffset clamped))
    Serves s (.setcursor col row) (write8Events c v false 50 none) ∧
    (write8Events c v false 50 none).length = 22 ∧ time (write8Events c v false 50 none) = 56 ∧
    (c.Ok → TransferLevels c v false (Latches.afterAll (write8Events c v false 50 none) s.out))

/-- R99, R124, R191, R194: what a READY engine refuses: a CREATE with AlreadyInitialized, a SETCURSOR with a negative
row with RowIndexUndefined: no event, no state change. -/
def Obligations.ReadyEngineRefuses : Prop :=
  ∀ (s : State) (c : EngineConfig), s.Idle → s.ReadyWith c →
    (∀ config, exec (.create config) s = .next { s with results := s.results ++ [.alreadyInitialized] }) ∧
    (∀ col row, row < 0 →
      exec (.setcursor col row) s = .next { s with results := s.results ++ [.rowIndexUndefined row] })

/-- R122, R124: the clamp is one-sided: `row >= cfg.rows` gives `cfg.rows - 1`, `0 <= row < cfg.rows` gives `row`, and a
SETCURSOR beyond the last row is the SETCURSOR of the last row. A negative row is not clamped: it is not served as row 0
(what it gets instead is the spec's decision D15, ReadyEngineRefuses above). -/
def Obligations.RowClampIsOneSided : Prop :=
  ∀ (rows : RowCount) (row : Nat),
    (rows.toNat ≤ row → (clampRow rows row).val = rows.toNat - 1) ∧
    (row < rows.toNat → (clampRow rows row).val = row) ∧
    (∀ (s : State) (c : EngineConfig) (col : Nat), s.cfg = some c → c.rows = rows → rows.toNat ≤ row →
      exec (.setcursor col row) s = exec (.setcursor col ((rows.toNat - 1 : Nat) : Int)) s) ∧
    (∀ (s : State) (c : EngineConfig) (col : Nat) (negative : Int), s.Idle → s.ReadyWith c → negative < 0 →
      exec (.setcursor col negative) s ≠ exec (.setcursor col 0) s)

/-- R47: the row offset table, the same for every configuration; the cell at column `col` of row `row` is
`col + ROW_OFFSET[row]`. -/
def Obligations.RowOffsetTable : Prop :=
  rowOffset 0 = 0x00 ∧ rowOffset 1 = 0x40 ∧ rowOffset 2 = 0x14 ∧ rowOffset 3 = 0x54 ∧
  (∀ (rows : RowCount) (col row : Nat) (index : Fin 4), row < rows.toNat → index.val = row →
    cursorAddr rows col row = col + rowOffset index)

/-- R123: with the default `K.SETDDRAMADDR = 0x80` the byte is `0x80 | (addr mod 128)`, and for `addr <= 0x7F` it is
`0x80 + addr`. -/
def Obligations.SetCursorByte : Prop :=
  ∀ (k : Consts) (addr : Nat), k.setDdramAddr = 0x80 →
    setDdramByte k addr = 0x80 ||| BitVec.ofNat 8 (addr % 128) ∧
    (addr ≤ 0x7F → (setDdramByte k addr).toNat = 0x80 + addr)

/-- R111, R113, R115: PRINT of a READY idle engine is served for every text: its events are those of the text's
characters with the row counter starting at 0, and the counter is discarded. An empty text completes at once. -/
def Obligations.PrintCompletes : Prop :=
  ∀ (s : State) (c : EngineConfig) (text : List Nat), s.Idle → s.ReadyWith c → s.printRow = none →
    (text ≠ [] → Serves s (.print text) (printEvents s.env c 0 text)) ∧
    exec (.print []) s = .next { s with results := s.results ++ [.success] }

/-- R111 to R114: the events of a text, character by character: a newline calls SETCURSOR(0, row + 1) and steps the
counter; any other code, also one with the newline's low byte, is a data transfer of its code mod 256. -/
def Obligations.PrintEventsFollowTheText : Prop :=
  ∀ (env : Env) (c : EngineConfig) (row : Nat) (before rest : List Nat) (code : Nat),
    printEvents env c row (before ++ code :: rest) =
      printEvents env c row before ++
        (if code = env.newline then
          write8Events c (setDdramByte env.k
              (0 + rowOffset (clampRow c.rows (row + before.count env.newline + 1)))) false 50 none ++
            printEvents env c (row + before.count env.newline + 1) rest
        else
          write8Events c (BitVec.ofNat 8 (code % 256)) true 50 none ++
            printEvents env c (row + before.count env.newline) rest)

/-- R116: every character, newline or not, is one transfer: 22 events and 56 microseconds each, two enable pulses. -/
def Obligations.PrintSize : Prop :=
  ∀ (env : Env) (c : EngineConfig) (row : Nat) (text : List Nat),
    (printEvents env c row text).length = 22 * text.length ∧
    time (printEvents env c row text) = 56 * text.length ∧
    (c.Ok → (printEvents env c row text).count (.wr c.en .high) = 2 * text.length)

/-- R39, and log entry 13 for the refusal (the model's choice): a request executed while something is pending finds the port closed. -/
def Obligations.PortClosedWhileBusy : Prop :=
  ∀ (s : State) (i : Instr), s.pending ≠ [] →
    (∃ config, i = .create config) ∨ i = .clear ∨ (∃ text, i = .print text) ∨ (∃ col row, i = .setcursor col row) ∨
      (∃ opcode rest, i = .reservedRequest opcode rest) →
    exec i s = .refused .portClosed

/-- R6: the small-step machine is the unfolding of the big-step function: from an idle engine whose host makes the
request `r`, some number of steps later the machine is in exactly the state the big-step function gives, applied where the request has been issued. -/
def Obligations.StepsUnfoldBigStep : Prop :=
  ∀ (s : State) (r : Request) (moves : List HostMove), s.Idle → s.printRow = none →
    (s.phase = .ready ↔ s.cfg.isSome = true) → s.host = .request r :: moves →
    ∃ n, State.run n s = .next (State.bigStep r (Issued s (isCreate r.toInstr) moves))

/-! ### Frames, primitives, events -/

/-- R74 to R79: the raw frames, 0x33 with init delay 4100 and 0x32 with init delay 100, 23 events each; the composed
frames and the clear, with the constants as parameters. -/
def Obligations.FixedFramesComplete : Prop :=
  ∀ (s : State) (c : EngineConfig), s.wiring = some c →
    let k := s.env.k
    Calls s .rawInit1 (write8Events c 0x33 false 50 (some 4100)) ∧
    Calls s .rawInit2 (write8Events c 0x32 false 50 (some 100)) ∧
    (∀ v t, (write8Events c v false 50 (some t)).length = 23) ∧
    Calls s .displaycontrol
      (write8Events c (k.displayControl ||| k.displayOn ||| k.cursorOff ||| k.blinkOff) false 50 none) ∧
    Calls s .functionset
      (write8Events c (k.functionSet ||| k.fourBitMode ||| k.twoLine ||| k.fiveByEightDots) false 50 none) ∧
    Calls s .entrymodeset
      (write8Events c (k.entryModeSet ||| k.entryLeft ||| k.entryShiftDecrement) false 50 none) ∧
    Calls s .cleardisplay (write8Events c k.clearDisplay false 50 none)

/-- R80, R81: the two frames with an operand. -/
def Obligations.OperandFramesComplete : Prop :=
  ∀ (s : State) (c : EngineConfig), s.wiring = some c →
    (∀ addr, Calls s (.setddramaddr addr)
      (write8Events c (BitVec.ofNat 8 (s.env.k.setDdramAddr.toNat ||| addr)) false 50 none)) ∧
    (∀ code, Calls s (.data code) (write8Events c (BitVec.ofNat 8 (code % 256)) true 50 none))

/-- R73: RETURNHOME, CURSORSHIFT and SETCGRAMADDR stop by name (log entry 20): no rule gives them an effect. -/
def Obligations.NeverEmittedFramesStop : Prop :=
  ∀ s : State,
    (∀ x, exec (.returnhome x) s = .refused (.neverEmitted "RETURNHOME")) ∧
    (∀ a b xx, exec (.cursorshift a b xx) s = .refused (.neverEmitted "CURSORSHIFT")) ∧
    (∀ addr, exec (.setcgramaddr addr) s = .refused (.neverEmitted "SETCGRAMADDR"))

/-- R132: WRITE8, the seven steps in order, for every operand. -/
def Obligations.Write8Completes : Prop :=
  ∀ (s : State) (c : EngineConfig) (v : Byte) (rsFlag : Bool) (settle : Nat) (initDelay : Option Nat),
    s.wiring = some c →
    Calls s (.write8 v rsFlag settle initDelay)
      ([.sleep settle] ++ [.wr c.rs (if rsFlag then .high else .low)] ++
        nibbleEvents c (v.extractLsb' 4 4) ++ pulseEvents c ++
        (match initDelay with
          | some t => [.sleep t]
          | none => []) ++
        nibbleEvents c (v.extractLsb' 0 4) ++ pulseEvents c)

/-- R134: NIBBLE writes the four data pins in ascending index, bit `i` of the nibble on `d[i]`. -/
def Obligations.NibbleCompletes : Prop :=
  ∀ (s : State) (c : EngineConfig) (n : Nibble), s.wiring = some c →
    Calls s (.nibble n)
      [.wr c.d0 (lvl (n.getLsbD 0)), .wr c.d1 (lvl (n.getLsbD 1)), .wr c.d2 (lvl (n.getLsbD 2)),
        .wr c.d3 (lvl (n.getLsbD 3))]

/-- R145: PULSE, its six events, 3 microseconds, enable LOW at the end; it has no encoding. -/
def Obligations.PulseCompletes : Prop :=
  ∀ (s : State) (c : EngineConfig), s.wiring = some c →
    let events : List Event :=
      [.wr c.en .low, .sleep 1, .wr c.en .high, .sleep 1, .wr c.en .low, .sleep 1]
    Calls s .pulse events ∧ events.length = 6 ∧ time events = 3 ∧
    (Latches.afterAll events s.out).get c.en = some .low ∧ encode .pulse = none

/-- R150 to R153: `Cfg` of a pin the platform accepts, `Wr` and `Sleep` are performed: latch, trace and receiver's view
change, nothing else, and the last pending one completes the request in progress. -/
def Obligations.CollaboratorCallsComplete : Prop :=
  ∀ (s : State) (e : Event), (∀ p l, e = .cfg p l → cfgOk s.env p = true) →
    exec e.toInstr s = .next ({ s with
      out := (match e with
        | .cfg p l => s.out.set p l
        | .wr p l => s.out.set p l
        | .sleep _ => s.out)
      trace := s.trace ++ [e]
      display := s.display.after s.env s.wiring s.out e } : State).settle

/-- R94, R150, R186: `Cfg` of a pin the platform rejects raises HardwareAccessError: no event, no latch, nothing left
pending. -/
def Obligations.RejectedCfgRaises : Prop :=
  ∀ (s : State) (p : PinId) (l : Level), cfgOk s.env p = false →
    exec (.cfg p l) s = .next { s with
      pending := []
      inFlight := none
      results := s.results ++ [.hardwareAccessError p] }

/-- R24: a pin event leaves every other pin's latch alone and a sleep leaves them all; the written pin reads back. -/
def Obligations.LatchFrame : Prop :=
  ∀ (out : Latches) (p : PinId) (l : Level),
    (∀ e, e = .cfg p l ∨ e = .wr p l →
      (out.after e).get p = some l ∧ ∀ q, q ≠ p → (out.after e).get q = out.get q) ∧
    (∀ d, out.after (.sleep d) = out)

/-! ### Transfers and what the display receives -/

/-- R37, R136: the levels after any transfer, on any earlier levels. -/
def Obligations.TransferEndLevels : Prop :=
  ∀ (c : EngineConfig) (v : Byte) (rsFlag : Bool) (settle : Nat) (initDelay : Option Nat) (out : Latches), c.Ok →
    TransferLevels c v rsFlag (Latches.afterAll (write8Events c v rsFlag settle initDelay) out)

/-- R135: register select is written exactly once in a transfer, whatever its level before, and before the data pins of
the high nibble: it is the second event, after the settle sleep, the only one on its pin, and every write on a data pin
comes later. -/
def Obligations.RegisterSelectWrittenOnce : Prop :=
  ∀ (c : EngineConfig) (v : Byte) (rsFlag : Bool) (settle : Nat) (initDelay : Option Nat), c.Ok →
    let events := write8Events c v rsFlag settle initDelay
    events[0]? = some (.sleep settle) ∧ events[1]? = some (.wr c.rs (lvl rsFlag)) ∧
    (∀ (k : Nat) (l : Level), events[k]? = some (.wr c.rs l) → k = 1) ∧
    (∀ (k : Nat) (p : PinId) (l : Level), p ∈ [c.d0, c.d1, c.d2, c.d3] → events[k]? = some (.wr p l) → 1 < k)

/-- R167: the frames of one transfer are the one frame `(rsFlag, v)`, on any earlier levels with enable not HIGH. -/
def Obligations.TransferIsOneFrame : Prop :=
  ∀ (c : EngineConfig) (v : Byte) (rsFlag : Bool) (settle : Nat) (initDelay : Option Nat) (out : Latches), c.Ok →
    out.get c.en ≠ some .high →
    framesFrom c out (write8Events c v rsFlag settle initDelay) = [⟨rsFlag, v⟩]

/-- R168: the frames of each request with the default constants, for every configuration, text, column and row. -/
def Obligations.FramesOfEachRequest : Prop :=
  ∀ (env : Env) (c : EngineConfig) (out : Latches), c.Ok → ConstantsDefault env → out.get c.en ≠ some .high →
    framesFrom c out (createEvents env c) =
      [⟨false, 0x33⟩, ⟨false, 0x32⟩, ⟨false, 0x0C⟩, ⟨false, 0x28⟩, ⟨false, 0x06⟩, ⟨false, 0x01⟩] ∧
    framesFrom c out (clearEvents env c) = [⟨false, 0x01⟩] ∧
    (∀ col row, framesFrom c out (setcursorEvents env c col row) =
      [⟨false, BitVec.ofNat 8 (0x80 ||| (col + rowOffset (clampRow c.rows row)))⟩]) ∧
    (∀ text, framesFrom c out (printEvents env c 0 text) = printFrames env.newline c.rows 0 text)

/-- R69: with the default constants no request sends any other frame, whatever it is and whatever its operands. -/
def Obligations.OnlyEngineFramesAreSent : Prop :=
  ∀ (s : State) (r : Request) (c : EngineConfig), ConstantsDefault s.env → c.Ok → s.out.get c.en ≠ some .high →
    (plan s.env s.phase s.cfg r).creates = some c ∨
      ((plan s.env s.phase s.cfg r).creates = none ∧ s.cfg = some c) →
    ∀ f ∈ framesFrom c s.out (plan s.env s.phase s.cfg r).events, EngineFrame f

/-- R131, R151, R152: every event of every request is a `Cfg` LOW or a `Wr` on one of the six configured pins or a
`Sleep` of 50, 1, 4100 or 100. -/
def Obligations.EventsOfRequests : Prop :=
  ∀ (env : Env) (phase : Phase) (cfg : Option EngineConfig) (r : Request) (c : EngineConfig),
    (plan env phase cfg r).creates = some c ∨ ((plan env phase cfg r).creates = none ∧ cfg = some c) →
    ∀ e ∈ (plan env phase cfg r).events, Event.Of c e

/-- R169, R223: the times of CREATE's twelve latches since its first event: 52 to the first, then gaps of 4103, 53, 103
along the wake-up nibbles, 3 inside an ordinary transfer and 53 between transfers. -/
def Obligations.CreateLatchTimes : Prop :=
  ∀ (env : Env) (c : EngineConfig) (out : Latches), c.Ok → out.get c.en ≠ some .high →
    latchTimesFrom c 0 out (createEvents env c) =
      [52, 4155, 4208, 4311, 4364, 4367, 4420, 4423, 4476, 4479, 4532, 4535]

/-- R170: the register-select write and the four data writes before a pulse may be permuted: the samples are the same. -/
def Obligations.WriteOrderIsInvisible : Prop :=
  ∀ (c : EngineConfig) (out : Latches) (n : Nibble) (l : Level) (writes : List Event) (rest : List Event), c.Ok →
    writes.Perm (.wr c.rs l :: nibbleEvents c n) →
    latchFrom c out (writes ++ pulseEvents c ++ rest) =
      latchFrom c out ((.wr c.rs l :: nibbleEvents c n) ++ pulseEvents c ++ rest)

/-! ### The display shadow -/

/-- R173 to R175: what a frame does to a known shadow: the clear blanks every cell and homes the counter; a
set-address to an implemented address moves the counter and leaves every cell; a data frame at an implemented address
stores its byte there, leaves every other cell, and steps the counter. That a clear byte with bit 7 set is the clear is
the model's choice (log entry 28). -/
def Obligations.FramesMoveTheShadow : Prop :=
  ∀ (env : Env) (ddram : List Host.Cell) (ac : BitVec 7), Memory.wf env.blank ddram = true →
    Shadow.frame env ⟨false, env.k.clearDisplay⟩ (.known ddram ac) = .known [] 0 ∧
    (∀ a, Memory.read env.blank a [] = env.blank) ∧
    (∀ v : Byte, v ≠ env.k.clearDisplay → v.getLsbD 7 = true → validAddr env (v.toNat % 128) = true →
      Shadow.frame env ⟨false, v⟩ (.known ddram ac) = .known ddram (v.extractLsb' 0 7)) ∧
    (∀ v : Byte, validAddr env ac.toNat = true →
      ∃ after, Shadow.frame env ⟨true, v⟩ (.known ddram ac) = .known after (acNext env ac) ∧
        ∀ a, Memory.read env.blank a after = if a = ac.toNat then v else Memory.read env.blank a ddram)

/-- R176 to R178 and log entry 9: the mode frames and the raw frames leave the shadow alone; a set-address outside the
valid ranges loses it; a lost shadow stays lost. -/
def Obligations.FramesLeaveOrLoseTheShadow : Prop :=
  ∀ (env : Env), ConstantsDefault env →
    (∀ v ∈ [(0x33 : Byte), 0x32, 0x0C, 0x28, 0x06], ∀ x : Shadow, x.frame env ⟨false, v⟩ = x) ∧
    (∀ (v : Byte) (ddram : List Host.Cell) (ac : BitVec 7), v.getLsbD 7 = true →
      validAddr env (v.toNat % 128) = false → Shadow.frame env ⟨false, v⟩ (.known ddram ac) = .lost) ∧
    (∀ f : Frame, Shadow.frame env f .lost = .lost)

/-- R167 with R173 to R177 at the level of events, and R224: a transfer performed while the host owes the display no
time reaches the shadow as the frame `(rsFlag, v)`, and leaves nothing owed unless it is the clear, after which the whole
`T_CLEAR_EXEC` is owed from the return on (the bookkeeping of what is owed is the model's, log entry 22). -/
def Obligations.TransferReachesTheShadow : Prop :=
  ∀ (s : State) (c : EngineConfig) (v : Byte) (rsFlag : Bool) (settle : Nat) (initDelay : Option Nat),
    s.wiring = some c → c.Ok → s.out.get c.en ≠ some .high → s.display.Settled →
    (s.performAll (write8Events c v rsFlag settle initDelay)).display =
      { half := none
        shadow := s.display.shadow.frame s.env ⟨rsFlag, v⟩
        clearDuty := if rsFlag = false ∧ v = s.env.k.clearDisplay then s.env.tClearExec else 0
        powerDuty := 0 }

/-- R172, R211, R224: a CREATE begun when the host owes the display no time leaves it, with the default constants, with
every cell BLANK and the address counter 0 whatever it held before, unless it was already lost; that is known from the
end of the CREATE, not one event earlier; and from there the host owes it `T_CLEAR_EXEC`. -/
def Obligations.CreateMakesTheDisplayKnown : Prop :=
  ∀ (s : State) (config : RawConfig) (c : EngineConfig), s.Idle → s.phase = .uninit →
    configOf config = some c → PinsOk s.env c → ConstantsDefault s.env → s.out.get c.en ≠ some .high →
    s.display.Settled → s.display.shadow ≠ .lost →
    ∃ t u, exec (.create config) s = .next t ∧ State.run 140 t = .next u ∧
      u.display = { half := none, shadow := .known [] 0, clearDuty := s.env.tClearExec, powerDuty := 0 } ∧
      ((∀ ddram ac, s.display.shadow ≠ .known ddram ac) →
        ∀ k < 140, ∃ v, State.run k t = .next v ∧ ∀ ddram ac, v.display.shadow ≠ .known ddram ac)

/-- R175, R180: printing a text without a newline on a settled display stores its bytes from the address counter on and
moves the counter past them, where the display implements all those addresses and none is a jump. -/
def Obligations.PrintStoresTheText : Prop :=
  ∀ (s : State) (c : EngineConfig) (row : Nat) (text : List Nat) (ddram : List Host.Cell) (ac : BitVec 7),
    s.wiring = some c → c.Ok → s.out.get c.en ≠ some .high → s.display.Settled →
    s.display.shadow = .known ddram ac → Memory.wf s.env.blank ddram = true → s.env.newline ∉ text →
    ac.toNat + text.length < 128 →
    (∀ j < text.length, validAddr s.env (ac.toNat + j) = true ∧ s.env.acJumps.lookup (ac.toNat + j) = none) →
    ∃ after, (s.performAll (printEvents s.env c row text)).display.shadow =
        .known after (BitVec.ofNat 7 (ac.toNat + text.length)) ∧
      ∀ a, Memory.read s.env.blank a after =
        if ac.toNat ≤ a ∧ a < ac.toNat + text.length
          then BitVec.ofNat 8 (text.getD (a - ac.toNat) 0)
          else Memory.read s.env.blank a ddram

/-- R166, R167, R172 to R178 with log entries 9, 22 and 28: what one performed event does to every cell of DDRAM and to the
address counter. An event that is no falling edge of enable leaves the whole receiver's view as it was; a falling edge
that latches a high nibble holds it and leaves DDRAM and the counter; one that latches a low nibble completes a frame:
the clear blanks every cell, data stores one byte at the counter and leaves every other cell, a set-address leaves every
cell, a mode byte leaves everything, and any other frame, or any latch while the host owes the display time, loses the
shadow. -/
def Obligations.EventMemoryFrame : Prop :=
  ∀ (s : State) (e : Event) (ddram : List Host.Cell) (ac : BitVec 7),
    s.display.shadow = .known ddram ac → Memory.wf s.env.blank ddram = true →
    let after := (s.perform e).display
    ((∀ c, s.wiring = some c → isFallingEdge c s.out e = false) → after = s.display) ∧
    (∀ c, s.wiring = some c → isFallingEdge c s.out e = true →
      (s.display.clearDuty ≠ 0 ∨ s.display.powerDuty ≠ 0 → after.shadow = .lost) ∧
      (s.display.clearDuty = 0 → s.display.powerDuty = 0 →
        (s.display.half = none → after = { s.display with half := some (sampleOf c s.out) }) ∧
        (∀ hi, s.display.half = some hi →
          let f := frameOf hi (sampleOf c s.out)
          after.half = none ∧
          (f = ⟨false, s.env.k.clearDisplay⟩ → after.shadow = .known [] 0) ∧
          (f.rs = true → validAddr s.env ac.toNat = true →
            ∃ cells, after.shadow = .known cells (acNext s.env ac) ∧
              ∀ a, Memory.read s.env.blank a cells =
                if a = ac.toNat then f.v else Memory.read s.env.blank a ddram) ∧
          (f.rs = true → validAddr s.env ac.toNat = false → after.shadow = .lost) ∧
          (f.rs = false → f.v ≠ s.env.k.clearDisplay → f.v.getLsbD 7 = true →
            after.shadow =
              if validAddr s.env (f.v.toNat % 128) then .known ddram (f.v.extractLsb' 0 7) else .lost) ∧
          (f.rs = false → f.v ≠ s.env.k.clearDisplay → f.v.getLsbD 7 = false →
            after.shadow = if isModeByte s.env.k f.v then .known ddram ac else .lost))))

/-- R179: a cell of the panel is `ddram[column + ROW_OFFSET[row]]` within the configured rows and columns, and nothing
outside them. For a panel the fixed table does not fit (R50) the same formula is the model's choice (log entry 27). -/
def Obligations.VisibleCells : Prop :=
  ∀ (env : Env) (c : EngineConfig) (x : Display) (ddram : List Host.Cell) (ac : BitVec 7) (r : Fin 4) (col : Nat),
    x.shadow = .known ddram ac →
    (r.val < c.rows.toNat ∧ col < c.columns →
      x.visible env c r col =
        some (Memory.read env.blank (col + ([0x00, 0x40, 0x14, 0x54] : List Nat).getD r.val 0) ddram)) ∧
    (¬ (r.val < c.rows.toNat ∧ col < c.columns) → x.visible env c r col = none)
end

