-- ==== Sys2Proof/Laws/Decode.lean ====
section
/-! SUPPORT. What the packet decoder does with each opcode, and that the byte-order and pin helpers invert each other. -/

namespace Sys2Proof

theorem decodePacket_create (rest : List Byte) : decodePacket (0x00 :: rest) = decodeCreate rest := by
  simp [decodePacket]
theorem decodePacket_clear (rest : List Byte) : decodePacket (0x01 :: rest) = decodeClear rest := by
  simp [decodePacket]
theorem decodePacket_print (rest : List Byte) : decodePacket (0x02 :: rest) = decodePrint rest := by
  simp [decodePacket]
theorem decodePacket_setcursor (rest : List Byte) : decodePacket (0x03 :: rest) = decodeSetcursor rest := by
  simp [decodePacket]

theorem decodePacket_reserved {opcode : Byte} (h : 4 ≤ opcode.toNat) (rest : List Byte) :
    decodePacket (opcode :: rest) = .ok (.reservedRequest opcode rest) := by
  simp only [decodePacket]; split <;> first | omega | rfl

/-- Byte 0 is one of the four opcodes or reserved (R62, R64). -/
theorem opcode_cases (opcode : Byte) :
    opcode = 0x00 ∨ opcode = 0x01 ∨ opcode = 0x02 ∨ opcode = 0x03 ∨ 4 ≤ opcode.toNat := by
  have key : ∀ n : Nat, opcode.toNat = n → n < 4 → opcode = BitVec.ofNat 8 n := by
    intro n h _; apply BitVec.eq_of_toNat_eq; simp [← h]
  rcases Nat.lt_or_ge opcode.toNat 4 with h | h
  · have h4 : opcode.toNat = 0 ∨ opcode.toNat = 1 ∨ opcode.toNat = 2 ∨ opcode.toNat = 3 := by omega
    rcases h4 with h0 | h0 | h0 | h0
    · exact .inl (key 0 h0 (by omega))
    · exact .inr (.inl (key 1 h0 (by omega)))
    · exact .inr (.inr (.inl (key 2 h0 (by omega))))
    · exact .inr (.inr (.inr (.inl (key 3 h0 (by omega)))))
  · exact .inr (.inr (.inr (.inr h)))

theorem byteOf_toNat (k n : Nat) : (byteOf k n).toNat = n / 256 ^ k % 256 := by simp [byteOf]

theorem le16_bytes {n : Nat} (h : n < 65536) : le16 (byteOf 0 n) (byteOf 1 n) = n := by
  simp only [le16, byteOf_toNat]; omega

theorem bytes_le16 (lo hi : Byte) : byteOf 0 (le16 lo hi) = lo ∧ byteOf 1 (le16 lo hi) = hi := by
  have h1 := lo.isLt
  have h2 := hi.isLt
  constructor <;> apply BitVec.eq_of_toNat_eq <;> simp only [byteOf_toNat, le16] <;> omega

theorem le16_lt (lo hi : Byte) : le16 lo hi < 65536 := by
  have h1 := lo.isLt
  have h2 := hi.isLt
  simp only [le16]; omega

theorem le32_bytes {n : Nat} (h : n < 4294967296) :
    le32 (byteOf 0 n) (byteOf 1 n) (byteOf 2 n) (byteOf 3 n) = n := by
  simp only [le32, le16, byteOf_toNat]; omega

theorem le32_lt (b0 b1 b2 b3 : Byte) : le32 b0 b1 b2 b3 < 4294967296 := by
  have h1 := le16_lt b0 b1
  have h2 := le16_lt b2 b3
  simp only [le32]; omega

theorem encodeChar_le32 (b0 b1 b2 b3 : Byte) : encodeChar (le32 b0 b1 b2 b3) = [b0, b1, b2, b3] := by
  have h0 := b0.isLt
  have h1 := b1.isLt
  have h2 := b2.isLt
  have h3 := b3.isLt
  simp only [encodeChar, List.cons.injEq, and_true]
  refine ⟨?_, ?_, ?_, ?_⟩ <;> apply BitVec.eq_of_toNat_eq <;> simp only [byteOf_toNat, le32, le16] <;> omega

theorem field16_sext16 {n : Nat} (h : n < 65536) : field16 (sext16 n) = n := by
  simp only [field16, sext16]; split <;> omega

theorem sext16_field16 {row : Int} (h1 : -32768 ≤ row) (h2 : row < 32768) : sext16 (field16 row) = row := by
  have h : (field16 row : Int) = row % 65536 := by simp only [field16]; omega
  simp only [sext16, h]
  by_cases hr : field16 row < 32768
  · rw [if_pos hr]; omega
  · rw [if_neg hr]; omega

theorem field16_lt (row : Int) : field16 row < 65536 := by simp only [field16]; omega

/-- A pin that fits the packet's field comes back, and a packet byte does (R62). -/
theorem packetPin_pinByte {p : PinId} (h : p.number < 256) : packetPin (pinByte p) = p := by
  obtain ⟨n⟩ := p
  simp only [packetPin, pinByte, BitVec.toNat_ofNat, PinId.mk.injEq]
  exact Nat.mod_eq_of_lt h

theorem pinByte_packetPin (b : Byte) : pinByte (packetPin b) = b := by
  apply BitVec.eq_of_toNat_eq; simp [pinByte, packetPin]

/-- The characters of an encoded text are the text. -/
theorem decodeChars_encode (text : List Nat) (h : ∀ c ∈ text, c < 4294967296) :
    decodeChars (text.flatMap encodeChar) = some text := by
  induction text with
  | nil => rfl
  | cons c rest ih =>
    have hrest := ih (fun d hd => h d (List.mem_cons_of_mem _ hd))
    rw [List.flatMap_cons]
    change (decodeChars (rest.flatMap encodeChar)).map _ = _
    rw [hrest, Option.map_some, le32_bytes (h c List.mem_cons_self)]

/-- Four bytes a character, and every code in range. -/
theorem decodeChars_some {bytes : List Byte} {text : List Nat} (h : decodeChars bytes = some text) :
    bytes = text.flatMap encodeChar ∧ ∀ c ∈ text, c < 4294967296 := by
  induction bytes using decodeChars.induct generalizing text with
  | case1 => cases h; simp
  | case2 b0 b1 b2 b3 rest ih =>
    simp only [decodeChars, Option.map_eq_some_iff] at h
    obtain ⟨more, hm, rfl⟩ := h
    obtain ⟨hb, hc⟩ := ih hm
    refine ⟨by rw [List.flatMap_cons, encodeChar_le32, ← hb]; rfl, ?_⟩
    intro c hc'
    rcases List.mem_cons.1 hc' with rfl | hc'
    · exact le32_lt _ _ _ _
    · exact hc c hc'
  | case3 bytes h1 h2 => rw [decodeChars] at h <;> simp_all

theorem flatMap_encodeChar_length (text : List Nat) : (text.flatMap encodeChar).length = 4 * text.length := by
  induction text with
  | nil => rfl
  | cons c rest ih => rw [List.flatMap_cons, List.length_append, ih]; simp [encodeChar]; omega

end Sys2Proof
end

