-- ==== Sys2Proof/Laws/State.lean ====
section
/-! SUPPORT. One lemma per field per update of State, so that no proof unfolds a record update. -/

namespace Sys2Proof.Machine

/-! ### `State.raise` -/

@[simp] theorem State.raise_phase (r : Result) (s : State) : (s.raise r).phase = s.phase := rfl
@[simp] theorem State.raise_cfg (r : Result) (s : State) : (s.raise r).cfg = s.cfg := rfl
@[simp] theorem State.raise_out (r : Result) (s : State) : (s.raise r).out = s.out := rfl
@[simp] theorem State.raise_pending (r : Result) (s : State) : (s.raise r).pending = [] := rfl
@[simp] theorem State.raise_printRow (r : Result) (s : State) : (s.raise r).printRow = s.printRow := rfl
@[simp] theorem State.raise_trace (r : Result) (s : State) : (s.raise r).trace = s.trace := rfl
@[simp] theorem State.raise_inFlight (r : Result) (s : State) : (s.raise r).inFlight = none := rfl
@[simp] theorem State.raise_host (r : Result) (s : State) : (s.raise r).host = s.host := rfl
@[simp] theorem State.raise_results (r : Result) (s : State) : (s.raise r).results = s.results ++ [r] := rfl
@[simp] theorem State.raise_display (r : Result) (s : State) : (s.raise r).display = s.display := rfl
@[simp] theorem State.raise_env (r : Result) (s : State) : (s.raise r).env = s.env := rfl

/-! ### `State.deliver` -/

@[simp] theorem State.deliver_phase (r : Result) (s : State) : (s.deliver r).phase = s.phase := rfl
@[simp] theorem State.deliver_cfg (r : Result) (s : State) : (s.deliver r).cfg = s.cfg := rfl
@[simp] theorem State.deliver_out (r : Result) (s : State) : (s.deliver r).out = s.out := rfl
@[simp] theorem State.deliver_pending (r : Result) (s : State) : (s.deliver r).pending = s.pending := rfl
@[simp] theorem State.deliver_printRow (r : Result) (s : State) : (s.deliver r).printRow = s.printRow := rfl
@[simp] theorem State.deliver_trace (r : Result) (s : State) : (s.deliver r).trace = s.trace := rfl
@[simp] theorem State.deliver_inFlight (r : Result) (s : State) : (s.deliver r).inFlight = s.inFlight := rfl
@[simp] theorem State.deliver_host (r : Result) (s : State) : (s.deliver r).host = s.host := rfl
@[simp] theorem State.deliver_results (r : Result) (s : State) : (s.deliver r).results = s.results ++ [r] := rfl
@[simp] theorem State.deliver_display (r : Result) (s : State) : (s.deliver r).display = s.display := rfl
@[simp] theorem State.deliver_env (r : Result) (s : State) : (s.deliver r).env = s.env := rfl

/-! ### `State.perform` -/

@[simp] theorem State.perform_phase (e : Event) (s : State) : (s.perform e).phase = s.phase := rfl
@[simp] theorem State.perform_cfg (e : Event) (s : State) : (s.perform e).cfg = s.cfg := rfl
@[simp] theorem State.perform_out (e : Event) (s : State) : (s.perform e).out = s.out.after e := rfl
@[simp] theorem State.perform_pending (e : Event) (s : State) : (s.perform e).pending = s.pending := rfl
@[simp] theorem State.perform_printRow (e : Event) (s : State) : (s.perform e).printRow = s.printRow := rfl
@[simp] theorem State.perform_trace (e : Event) (s : State) : (s.perform e).trace = s.trace ++ [e] := rfl
@[simp] theorem State.perform_inFlight (e : Event) (s : State) : (s.perform e).inFlight = s.inFlight := rfl
@[simp] theorem State.perform_host (e : Event) (s : State) : (s.perform e).host = s.host := rfl
@[simp] theorem State.perform_results (e : Event) (s : State) : (s.perform e).results = s.results := rfl
@[simp] theorem State.perform_display (e : Event) (s : State) : (s.perform e).display = s.display.after s.env s.wiring s.out e := rfl
@[simp] theorem State.perform_env (e : Event) (s : State) : (s.perform e).env = s.env := rfl

/-! ### `State.call` -/

@[simp] theorem State.call_phase (events : List Event) (s : State) : (s.call events).phase = s.phase := rfl
@[simp] theorem State.call_cfg (events : List Event) (s : State) : (s.call events).cfg = s.cfg := rfl
@[simp] theorem State.call_out (events : List Event) (s : State) : (s.call events).out = s.out := rfl
@[simp] theorem State.call_pending (events : List Event) (s : State) : (s.call events).pending = calls events ++ s.pending := rfl
@[simp] theorem State.call_printRow (events : List Event) (s : State) : (s.call events).printRow = s.printRow := rfl
@[simp] theorem State.call_trace (events : List Event) (s : State) : (s.call events).trace = s.trace := rfl
@[simp] theorem State.call_inFlight (events : List Event) (s : State) : (s.call events).inFlight = s.inFlight := rfl
@[simp] theorem State.call_host (events : List Event) (s : State) : (s.call events).host = s.host := rfl
@[simp] theorem State.call_results (events : List Event) (s : State) : (s.call events).results = s.results := rfl
@[simp] theorem State.call_display (events : List Event) (s : State) : (s.call events).display = s.display := rfl
@[simp] theorem State.call_env (events : List Event) (s : State) : (s.call events).env = s.env := rfl

/-! ### `State.resetEngine` -/

@[simp] theorem State.resetEngine_phase (s : State) : s.resetEngine.phase = .uninit := rfl
@[simp] theorem State.resetEngine_cfg (s : State) : s.resetEngine.cfg = none := rfl
@[simp] theorem State.resetEngine_out (s : State) : s.resetEngine.out = [] := rfl
@[simp] theorem State.resetEngine_pending (s : State) : s.resetEngine.pending = [] := rfl
@[simp] theorem State.resetEngine_printRow (s : State) : s.resetEngine.printRow = none := rfl
@[simp] theorem State.resetEngine_trace (s : State) : s.resetEngine.trace = [] := rfl
@[simp] theorem State.resetEngine_inFlight (s : State) : s.resetEngine.inFlight = none := rfl
@[simp] theorem State.resetEngine_host (s : State) : s.resetEngine.host = s.host := rfl
@[simp] theorem State.resetEngine_results (s : State) : s.resetEngine.results = s.results := rfl
@[simp] theorem State.resetEngine_display (s : State) : s.resetEngine.display = { s.display with half := none, shadow := .unknown } := rfl
@[simp] theorem State.resetEngine_env (s : State) : s.resetEngine.env = s.env := rfl

/-! ### `State.issue` -/

@[simp] theorem State.issue_phase (create : Bool) (moves : List HostMove) (s : State) :
    (s.issue create moves).phase = s.phase := rfl
@[simp] theorem State.issue_cfg (create : Bool) (moves : List HostMove) (s : State) :
    (s.issue create moves).cfg = s.cfg := rfl
@[simp] theorem State.issue_out (create : Bool) (moves : List HostMove) (s : State) :
    (s.issue create moves).out = s.out := rfl
@[simp] theorem State.issue_pending (create : Bool) (moves : List HostMove) (s : State) :
    (s.issue create moves).pending = s.pending := rfl
@[simp] theorem State.issue_printRow (create : Bool) (moves : List HostMove) (s : State) :
    (s.issue create moves).printRow = s.printRow := rfl
@[simp] theorem State.issue_trace (create : Bool) (moves : List HostMove) (s : State) :
    (s.issue create moves).trace = s.trace := rfl
@[simp] theorem State.issue_inFlight (create : Bool) (moves : List HostMove) (s : State) :
    (s.issue create moves).inFlight = s.inFlight := rfl
@[simp] theorem State.issue_host (create : Bool) (moves : List HostMove) (s : State) :
    (s.issue create moves).host = moves := rfl
@[simp] theorem State.issue_results (create : Bool) (moves : List HostMove) (s : State) :
    (s.issue create moves).results = s.results := rfl
@[simp] theorem State.issue_display (create : Bool) (moves : List HostMove) (s : State) :
    (s.issue create moves).display = s.display.requested create := rfl
@[simp] theorem State.issue_env (create : Bool) (moves : List HostMove) (s : State) :
    (s.issue create moves).env = s.env := rfl

end Sys2Proof.Machine
end

