-- ==== Sys2Proof/Laws/Pins.lean ====
section
/-! SUPPORT. What the output latches do: read after write, every other pin alone, no pin listed twice. -/

namespace Sys2Proof.Machine

@[simp] theorem Latches.get_nil (p : PinId) : Latches.get p [] = none := rfl

theorem Latches.get_set_self (p : PinId) (l : Level) (out : Latches) : (out.set p l).get p = some l := by
  induction out with
  | nil => simp [Latches.set, Latches.get]
  | cons e rest ih =>
    obtain ⟨q, m⟩ := e
    simp only [Latches.set]
    split
    · simp [Latches.get]
    · next h => simp [Latches.get, h, ih]

theorem Latches.get_set_ne {p q : PinId} (h : q ≠ p) (l : Level) (out : Latches) :
    (out.set p l).get q = out.get q := by
  induction out with
  | nil => simp [Latches.set, Latches.get, h.symm]
  | cons e rest ih =>
    obtain ⟨r, m⟩ := e
    simp only [Latches.set]
    split
    · next hr => subst hr; simp [Latches.get, h.symm]
    · simp [Latches.get, ih]

/-- `out[q]` after `out[p] <- l`. -/
theorem Latches.get_set (p q : PinId) (l : Level) (out : Latches) :
    (out.set p l).get q = if q = p then some l else out.get q := by
  split
  · next h => subst h; exact Latches.get_set_self _ _ _
  · next h => exact Latches.get_set_ne h _ _

/-- The pins listed after a write: those before and the written one. -/
theorem Latches.contains_set (p q : PinId) (l : Level) (out : Latches) :
    ((out.set p l).map Prod.fst).contains q = ((out.map Prod.fst).contains q || q == p) := by
  induction out with
  | nil => simp only [Latches.set, List.map_nil, List.map_cons, List.contains_cons, List.contains_nil, Bool.or_false, Bool.false_or]
  | cons e rest ih =>
    obtain ⟨r, m⟩ := e
    simp only [Latches.set]
    split
    · next h => subst h; simp only [List.map_cons, List.contains_cons]; cases q == r <;> simp
    · simp only [List.map_cons, List.contains_cons, ih, Bool.or_assoc]

/-- Every write keeps each pin listed once. -/
theorem Latches.wf_set (p : PinId) (l : Level) {out : Latches} (h : Latches.wf out = true) :
    Latches.wf (out.set p l) = true := by
  induction out with
  | nil => simp [Latches.set, Latches.wf, allDistinct]
  | cons e rest ih =>
    obtain ⟨q, m⟩ := e
    simp only [Latches.set]
    split
    · next hp => subst hp; exact h
    · next hp =>
      simp only [Latches.wf, List.map_cons, allDistinct, Bool.and_eq_true, Bool.not_eq_true', contains_set,
        Bool.or_eq_false_iff, beq_eq_false_iff_ne] at h ih ⊢
      exact ⟨⟨h.1, hp⟩, ih h.2⟩

/-- Every event keeps each pin listed once. -/
theorem Latches.wf_after (e : Event) {out : Latches} (h : Latches.wf out = true) :
    Latches.wf (out.after e) = true := by
  cases e with
  | cfg p l => exact Latches.wf_set p l h
  | wr p l => exact Latches.wf_set p l h
  | sleep d => exact h

@[simp] theorem Latches.after_cfg (p : PinId) (l : Level) (out : Latches) : out.after (.cfg p l) = out.set p l := rfl
@[simp] theorem Latches.after_wr (p : PinId) (l : Level) (out : Latches) : out.after (.wr p l) = out.set p l := rfl
@[simp] theorem Latches.after_sleep (d : Nat) (out : Latches) : out.after (.sleep d) = out := rfl
@[simp] theorem Latches.afterAll_nil (out : Latches) : Latches.afterAll [] out = out := rfl
@[simp] theorem Latches.afterAll_cons (e : Event) (events : List Event) (out : Latches) :
    Latches.afterAll (e :: events) out = Latches.afterAll events (out.after e) := rfl

theorem Latches.afterAll_append (a b : List Event) (out : Latches) :
    Latches.afterAll (a ++ b) out = Latches.afterAll b (Latches.afterAll a out) := by
  simp [Latches.afterAll, List.foldl_append]

end Sys2Proof.Machine
end

