-- ==== Sys2Proof/Laws/Memory.lean ====
section
/-! SUPPORT. What the DDRAM view does: read after write, every other cell alone, canonical form kept. -/

namespace Sys2Proof.Machine

theorem Memory.read_of_above {blank : Byte} {a : Nat} {m : List Host.Cell} (h : Memory.above a m = true) :
    Memory.read blank a m = blank := by
  induction m with
  | nil => rfl
  | cons c rest ih =>
    obtain ⟨b, v⟩ := c
    simp only [Memory.above, List.all_cons, Bool.and_eq_true, decide_eq_true_eq] at h ih
    have : ¬ b = a := by omega
    simp [Memory.read, this, ih h.2]

theorem Memory.read_insert (blank : Byte) (a b : Nat) (v : Byte) (m : List Host.Cell) :
    Memory.read blank b (Memory.insert a v m) = if b = a then v else Memory.read blank b m := by
  induction m with
  | nil =>
    by_cases h : b = a
    · subst h; simp [Memory.insert, Memory.read]
    · simp [Memory.insert, Memory.read, h, Ne.symm h]
  | cons c rest ih =>
    obtain ⟨d, w⟩ := c
    simp only [Memory.insert]
    split
    · by_cases h : b = a
      · subst h; simp [Memory.read]
      · simp [Memory.read, h, Ne.symm h]
    · split
      · next h1 =>
        subst h1
        by_cases h : b = a
        · subst h; simp [Memory.read]
        · simp [Memory.read, h, Ne.symm h]
      · next h1 h2 =>
        simp only [Memory.read, ih]
        split
        · next h3 => subst h3; simp [Ne.symm h2]
        · rfl

theorem Memory.read_erase {blank : Byte} (a b : Nat) {m : List Host.Cell} (h : Memory.wf blank m = true) :
    Memory.read blank b (Memory.erase a m) = if b = a then blank else Memory.read blank b m := by
  induction m with
  | nil => simp [Memory.erase, Memory.read]
  | cons c rest ih =>
    obtain ⟨d, w⟩ := c
    simp only [Memory.wf, Bool.and_eq_true] at h
    simp only [Memory.erase]
    split
    · next hd =>
      subst hd
      by_cases hb : b = d
      · subst hb; simp [Memory.read_of_above h.1.1]
      · simp [Memory.read, hb, eq_comm]
    · next hd =>
      simp only [Memory.read, ih h.2]
      split
      · next h3 => subst h3; simp [hd]
      · rfl

/-- Reading after a write: the byte written at its address, every other cell as before. -/
theorem Memory.read_write {blank : Byte} (a b : Nat) (v : Byte) {m : List Host.Cell} (h : Memory.wf blank m = true) :
    Memory.read blank b (Memory.write blank a v m) = if b = a then v else Memory.read blank b m := by
  simp only [Memory.write]
  split
  · next hv => subst hv; exact Memory.read_erase a b h
  · exact Memory.read_insert blank a b v m

theorem Memory.above_trans {a b : Nat} {m : List Host.Cell} (h : Memory.above b m = true) (hab : a < b) :
    Memory.above a m = true := by
  simp only [Memory.above, List.all_eq_true, decide_eq_true_eq] at h ⊢
  exact fun c hc => Nat.lt_trans hab (h c hc)

theorem Memory.above_insert {a b : Nat} {v : Byte} {m : List Host.Cell} (h : Memory.above a m = true) (hab : a < b) :
    Memory.above a (Memory.insert b v m) = true := by
  induction m with
  | nil => simpa [Memory.insert, Memory.above] using hab
  | cons c rest ih =>
    obtain ⟨d, w⟩ := c
    simp only [Memory.above, List.all_cons, Bool.and_eq_true, decide_eq_true_eq] at h ih
    simp only [Memory.insert, Memory.above]
    split
    · simp only [List.all_cons, Bool.and_eq_true, decide_eq_true_eq]; exact ⟨hab, h.1, h.2⟩
    · split
      · simp only [List.all_cons, Bool.and_eq_true, decide_eq_true_eq]; exact ⟨hab, h.2⟩
      · simp only [List.all_cons, Bool.and_eq_true, decide_eq_true_eq]; exact ⟨h.1, ih h.2⟩

theorem Memory.above_erase {a : Nat} (b : Nat) {m : List Host.Cell} (h : Memory.above a m = true) :
    Memory.above a (Memory.erase b m) = true := by
  induction m with
  | nil => rfl
  | cons c rest ih =>
    obtain ⟨d, w⟩ := c
    simp only [Memory.above, List.all_cons, Bool.and_eq_true, decide_eq_true_eq] at h ih
    simp only [Memory.erase]
    split
    · exact h.2
    · simp only [Memory.above, List.all_cons, Bool.and_eq_true, decide_eq_true_eq]; exact ⟨h.1, ih h.2⟩

/-- Every write keeps the canonical form. -/
theorem Memory.wf_write {blank : Byte} (a : Nat) (v : Byte) {m : List Host.Cell} (h : Memory.wf blank m = true) :
    Memory.wf blank (Memory.write blank a v m) = true := by
  simp only [Memory.write]
  split
  · induction m with
    | nil => rfl
    | cons c rest ih =>
      obtain ⟨d, w⟩ := c
      simp only [Memory.wf, Bool.and_eq_true] at h
      simp only [Memory.erase]
      split
      · exact h.2
      · simp only [Memory.wf, Bool.and_eq_true]; exact ⟨⟨Memory.above_erase a h.1.1, h.1.2⟩, ih h.2⟩
  · next hv =>
    induction m with
    | nil => simp [Memory.insert, Memory.wf, Memory.above, hv]
    | cons c rest ih =>
      obtain ⟨d, w⟩ := c
      simp only [Memory.wf, Bool.and_eq_true] at h
      simp only [Memory.insert]
      split
      · next had =>
        have h2 := Memory.above_trans h.1.1 had
        simp only [Memory.above] at h2
        simp only [Memory.wf, Memory.above, List.all_cons, Bool.and_eq_true, decide_eq_true_eq]
        exact ⟨⟨⟨had, h2⟩, by simp [hv]⟩, h.1, h.2⟩
      · split
        · next had => subst had; simp only [Memory.wf, Bool.and_eq_true]; exact ⟨⟨h.1.1, by simp [hv]⟩, h.2⟩
        · next h1 h2 =>
          simp only [Memory.wf, Bool.and_eq_true]
          exact ⟨⟨Memory.above_insert h.1.1 (by omega), h.1.2⟩, ih h.2⟩

@[simp] theorem Memory.wf_nil (blank : Byte) : Memory.wf blank [] = true := rfl

/-! ### The shadow -/

/-- The canonical form of a shadow's DDRAM. -/
abbrev Shadow.Wf (blank : Byte) (x : Shadow) : Prop :=
  ∀ ddram ac, x = .known ddram ac → Memory.wf blank ddram = true

theorem Shadow.wf_lost (blank : Byte) : Shadow.Wf blank .lost := by intro _ _ h; cases h
theorem Shadow.wf_unknown (blank : Byte) : Shadow.Wf blank .unknown := by intro _ _ h; cases h
theorem Shadow.wf_cleared (blank : Byte) : Shadow.Wf blank .cleared := by intro _ _ h; cases h
theorem Shadow.wf_known {blank : Byte} {m : List Host.Cell} (ac : BitVec 7) (h : Memory.wf blank m = true) :
    Shadow.Wf blank (.known m ac) := by intro _ _ e; cases e; exact h

/-- Every frame keeps it. -/
theorem Shadow.wf_frame (env : Env) (f : Frame) {x : Shadow} (h : x.Wf env.blank) : (x.frame env f).Wf env.blank := by
  cases x <;> simp only [Shadow.frame, Shadow.data, Shadow.clear, Shadow.setAddr] <;> repeat' split
  all_goals first
    | exact h | exact Shadow.wf_lost _ | exact Shadow.wf_unknown _ | exact Shadow.wf_cleared _
    | exact Shadow.wf_known _ (Memory.wf_nil _) | exact Shadow.wf_known _ (Memory.wf_write _ _ (h _ _ rfl))
    | exact Shadow.wf_known _ (h _ _ rfl)

theorem Shadow.wf_created {blank : Byte} {x : Shadow} (h : x.Wf blank) : x.created.Wf blank := by
  cases x with
  | cleared => exact Shadow.wf_known _ (Memory.wf_nil _)
  | _ => exact h

/-- The shadow may be claimed (R172). -/
abbrev Shadow.IsKnown (x : Shadow) : Prop := ∃ ddram ac, x = .known ddram ac

/-- No frame makes a shadow known that is not (R172). -/
theorem Shadow.isKnown_of_frame {env : Env} {f : Frame} {x : Shadow} (h : (x.frame env f).IsKnown) : x.IsKnown := by
  cases x with
  | known m ac => exact ⟨m, ac, rfl⟩
  | _ =>
    obtain ⟨m, ac, h⟩ := h
    simp only [Shadow.frame, Shadow.data, Shadow.clear, Shadow.setAddr] at h
    repeat' split at h
    all_goals cases h

/-! ### The display -/

@[simp] theorem Display.lose_half (x : Display) : x.lose.half = x.half := rfl
@[simp] theorem Display.lose_shadow (x : Display) : x.lose.shadow = .lost := rfl
@[simp] theorem Display.lose_clearDuty (x : Display) : x.lose.clearDuty = x.clearDuty := rfl
@[simp] theorem Display.lose_powerDuty (x : Display) : x.lose.powerDuty = x.powerDuty := rfl
@[simp] theorem Display.elapse_half (us : Nat) (x : Display) : (x.elapse us).half = x.half := rfl
@[simp] theorem Display.elapse_shadow (us : Nat) (x : Display) : (x.elapse us).shadow = x.shadow := rfl
@[simp] theorem Display.created_half (x : Display) : x.created.half = x.half := rfl
@[simp] theorem Display.created_shadow (x : Display) : x.created.shadow = x.shadow.created := rfl
@[simp] theorem Display.created_clearDuty (x : Display) : x.created.clearDuty = x.clearDuty := rfl
@[simp] theorem Display.created_powerDuty (x : Display) : x.created.powerDuty = x.powerDuty := rfl
@[simp] theorem Display.frame_half (env : Env) (f : Frame) (x : Display) : (x.frame env f).half = none := rfl
@[simp] theorem Display.frame_shadow (env : Env) (f : Frame) (x : Display) :
    (x.frame env f).shadow = x.shadow.frame env f := rfl
@[simp] theorem Display.frame_clearDuty (env : Env) (f : Frame) (x : Display) :
    (x.frame env f).clearDuty = if f.isClear env.k then env.tClearExec else x.clearDuty := rfl
@[simp] theorem Display.frame_powerDuty (env : Env) (f : Frame) (x : Display) :
    (x.frame env f).powerDuty = x.powerDuty := rfl
@[simp] theorem Display.after_sleep (env : Env) (wiring : Option EngineConfig) (out : Latches) (d : Nat) (x : Display) :
    x.after env wiring out (.sleep d) = x := by cases wiring <;> rfl
@[simp] theorem Display.after_unwired (env : Env) (out : Latches) (e : Event) (x : Display) :
    x.after env none out e = x := rfl

/-- What issuing a request can do to the receiver's view: nothing, or lose the shadow. -/
theorem Display.requested_cases (create : Bool) (x : Display) :
    x.requested create = x ∨ x.requested create = x.lose := by
  simp only [Display.requested]; split <;> simp

/-- What an arriving latch can do to it beside the latching itself. -/
theorem Display.arrive_cases (x : Display) : x.arrive = x ∨ x.arrive = x.lose := by
  simp only [Display.arrive]; split <;> simp

/-- What an event can do to the shadow: nothing, lose it, or apply one frame. -/
theorem Display.after_shadow (env : Env) (wiring : Option EngineConfig) (out : Latches) (e : Event) (x : Display) :
    (x.after env wiring out e).shadow = x.shadow ∨ (x.after env wiring out e).shadow = .lost ∨
      ∃ f, (x.after env wiring out e).shadow = x.shadow.frame env f ∨
        (x.after env wiring out e).shadow = Shadow.frame env f .lost := by
  cases wiring with
  | none => exact .inl rfl
  | some c =>
    simp only [Display.after]
    split
    · simp only [Display.latch]
      split
      · rcases x.arrive_cases with h | h <;> simp [h]
      · rcases x.arrive_cases with h | h
        · exact .inr (.inr ⟨_, .inl (by rw [h]; rfl)⟩)
        · exact .inr (.inr ⟨_, .inr (by rw [h]; rfl)⟩)
    · exact .inl rfl

/-- Every event keeps the canonical form. -/
theorem Display.wf_after (env : Env) (wiring : Option EngineConfig) (out : Latches) (e : Event) {x : Display}
    (h : x.shadow.Wf env.blank) : (x.after env wiring out e).shadow.Wf env.blank := by
  rcases x.after_shadow env wiring out e with g | g | ⟨f, g | g⟩ <;> rw [g]
  · exact h
  · exact Shadow.wf_lost _
  · exact Shadow.wf_frame env f h
  · exact Shadow.wf_frame env f (Shadow.wf_lost _)

/-- No event makes a shadow known that is not (R172). -/
theorem Display.isKnown_of_after {env : Env} {wiring : Option EngineConfig} {out : Latches} {e : Event} {x : Display}
    (h : (x.after env wiring out e).shadow.IsKnown) : x.shadow.IsKnown := by
  rcases x.after_shadow env wiring out e with g | g | ⟨f, g | g⟩ <;> rw [g] at h
  · exact h
  · obtain ⟨_, _, h⟩ := h; cases h
  · exact Shadow.isKnown_of_frame h
  · obtain ⟨_, _, h⟩ := Shadow.isKnown_of_frame h; cases h

/-- Nor does issuing a request. -/
theorem Display.isKnown_of_requested {create : Bool} {x : Display} (h : (x.requested create).shadow.IsKnown) :
    x.shadow.IsKnown := by
  rcases x.requested_cases create with g | g <;> rw [g] at h
  · exact h
  · obtain ⟨_, _, h⟩ := h; cases h

theorem Display.wf_requested {blank : Byte} {x : Display} (create : Bool) (h : x.shadow.Wf blank) :
    (x.requested create).shadow.Wf blank := by
  rcases x.requested_cases create with g | g <;> rw [g]
  · exact h
  · exact Shadow.wf_lost _

end Sys2Proof.Machine
end

