-- ==== Sys2Proof/Laws/Ops.lean ====
section
/-! SUPPORT. What each shared operation can do, said once: performing events, completing a request, accepting one,
calling an internal operation, and draining the pending list. -/

namespace Sys2Proof.Machine

/-! ### Lists of calls -/

@[simp] theorem calls_nil : calls ([] : List Event) = [] := rfl
@[simp] theorem calls_cons (e : Event) (events : List Event) : calls (e :: events) = e.toInstr :: calls events := rfl
@[simp] theorem calls_append (a b : List Event) : calls (a ++ b) = calls a ++ calls b := List.map_append
@[simp] theorem calls_length (events : List Event) : (calls events).length = events.length := List.length_map _
@[simp] theorem calls_eq_nil (events : List Event) : calls events = [] ↔ events = [] := List.map_eq_nil_iff

theorem toInstr_injective {a b : Event} (h : a.toInstr = b.toInstr) : a = b := by
  cases a <;> cases b <;> simp_all [Event.toInstr]

/-! ### Performing events -/

theorem State.perform_pending_comm (e : Event) (p : List Instr) (s : State) :
    ({ s with pending := p }).perform e = { s.perform e with pending := p } := rfl

theorem State.perform_wiring (e : Event) (s : State) : (s.perform e).wiring = s.wiring := rfl

@[simp] theorem State.performAll_nil (s : State) : s.performAll [] = s := rfl
@[simp] theorem State.performAll_cons (e : Event) (events : List Event) (s : State) :
    s.performAll (e :: events) = (s.perform e).performAll events := rfl

theorem State.performAll_append (a b : List Event) (s : State) :
    s.performAll (a ++ b) = (s.performAll a).performAll b := by
  simp [State.performAll, List.foldl_append]

/-- Performing events touches the latches, the receiver's view and the trace, and nothing else. -/
theorem State.performAll_frame (events : List Event) (s : State) :
    s.performAll events =
      { s with
        out := Latches.afterAll events s.out
        display := (s.performAll events).display
        trace := s.trace ++ events } := by
  induction events generalizing s with
  | nil => simp
  | cons e rest ih => rw [State.performAll_cons, ih]; simp [State.perform]

theorem State.performAll_out (events : List Event) (s : State) :
    (s.performAll events).out = Latches.afterAll events s.out := by rw [performAll_frame]
theorem State.performAll_trace (events : List Event) (s : State) :
    (s.performAll events).trace = s.trace ++ events := by rw [performAll_frame]
theorem State.performAll_pending (events : List Event) (s : State) :
    (s.performAll events).pending = s.pending := by rw [performAll_frame]
theorem State.performAll_inFlight (events : List Event) (s : State) :
    (s.performAll events).inFlight = s.inFlight := by rw [performAll_frame]
theorem State.performAll_env (events : List Event) (s : State) :
    (s.performAll events).env = s.env := by rw [performAll_frame]
theorem State.performAll_phase (events : List Event) (s : State) :
    (s.performAll events).phase = s.phase := by rw [performAll_frame]
theorem State.performAll_cfg (events : List Event) (s : State) :
    (s.performAll events).cfg = s.cfg := by rw [performAll_frame]
theorem State.performAll_results (events : List Event) (s : State) :
    (s.performAll events).results = s.results := by rw [performAll_frame]
theorem State.performAll_printRow (events : List Event) (s : State) :
    (s.performAll events).printRow = s.printRow := by rw [performAll_frame]
theorem State.performAll_host (events : List Event) (s : State) :
    (s.performAll events).host = s.host := by rw [performAll_frame]

theorem State.performAll_pending_comm (events : List Event) (p : List Instr) (s : State) :
    ({ s with pending := p }).performAll events = { s.performAll events with pending := p } := by
  induction events generalizing s with
  | nil => rfl
  | cons e rest ih => rw [performAll_cons, performAll_cons, perform_pending_comm, ih]

/-! ### Completing a request -/

theorem State.settle_of_pending {s : State} (h : s.pending ≠ []) : s.settle = s := by
  unfold State.settle; split
  · rfl
  · contradiction

theorem State.settle_of_idle {s : State} (h : s.inFlight = none) : s.settle = s := by
  unfold State.settle; split
  · rfl
  · simp only [h]

theorem State.settle_command {s : State} (hp : s.pending = []) (h : s.inFlight = some .command) :
    s.settle = { s with inFlight := none, results := s.results ++ [.success] } := by
  simp only [State.settle, hp, h]

theorem State.settle_create {s : State} {c : EngineConfig} (hp : s.pending = []) (h : s.inFlight = some (.create c)) :
    s.settle =
      { s with
        phase := .ready
        cfg := some c
        inFlight := none
        results := s.results ++ [.success]
        display := s.display.created } := by
  simp only [State.settle, hp, h]

/-- What completing can do: nothing, finish a command, or finish a CREATE. -/
theorem State.settle_cases (s : State) :
    s.settle = s ∨
    (s.pending = [] ∧ s.inFlight = some .command ∧
      s.settle = { s with inFlight := none, results := s.results ++ [.success] }) ∨
    (s.pending = [] ∧ ∃ c, s.inFlight = some (.create c) ∧ s.settle =
      { s with
        phase := .ready
        cfg := some c
        inFlight := none
        results := s.results ++ [.success]
        display := s.display.created }) := by
  by_cases hp : s.pending = []
  · rcases hf : s.inFlight with _ | (c | _)
    · exact .inl (settle_of_idle hf)
    · exact .inr (.inr ⟨hp, c, rfl, settle_create hp hf⟩)
    · exact .inr (.inl ⟨hp, rfl, settle_command hp hf⟩)
  · exact .inl (settle_of_pending hp)

/-- Accepting a request with at least one event loads the pending list. -/
theorem State.accept_of_ne {events : List Event} (h : events ≠ []) (f : InFlight) (s : State) :
    s.accept f events = { s with pending := calls events, inFlight := some f } :=
  settle_of_pending (by simpa using h)

/-! ### Executing events -/

/-- What executing an event can do: perform it, or, for a `Cfg` of a rejected pin, raise. -/
theorem exec_toInstr (e : Event) (s : State) :
    (exec e.toInstr s = .next (s.perform e).settle ∧ ∀ p l, e = .cfg p l → cfgOk s.env p = true) ∨
    ∃ p l, e = .cfg p l ∧ cfgOk s.env p = false ∧
      exec e.toInstr s = .next (s.raise (.hardwareAccessError p)) := by
  cases e with
  | cfg p l =>
    cases h : cfgOk s.env p with
    | true => exact .inl ⟨by simp [exec, Event.toInstr, execCfg, h], by intro q m hq; cases hq; exact h⟩
    | false => exact .inr ⟨p, l, rfl, h, by simp [exec, Event.toInstr, execCfg, h]⟩
  | wr p l => exact .inl ⟨rfl, by intro q m hq; cases hq⟩
  | sleep d => exact .inl ⟨rfl, by intro q m hq; cases hq⟩

theorem exec_toInstr_ok {e : Event} {s : State} (h : ∀ p l, e = .cfg p l → cfgOk s.env p = true) :
    exec e.toInstr s = .next (s.perform e).settle := by
  rcases exec_toInstr e s with h1 | ⟨p, l, he, hc, -⟩
  · exact h1.1
  · rw [h p l he] at hc; cases hc

/-! ### Steps and runs -/

theorem step_pending {s : State} {i : Instr} {rest : List Instr} (h : s.pending = i :: rest) :
    step s = exec i { s with pending := rest } := by
  simp [step, State.fetch, State.fetchWith, h]

/-- An idle engine takes an abstract request, which the host has then issued. -/
theorem step_request {s : State} {r : Request} {moves : List HostMove} (hp : s.pending = [])
    (hh : s.host = .request r :: moves) : step s = exec r.toInstr (s.issue (isCreate r.toInstr) moves) := by
  simp [step, State.fetch, State.fetchWith, hp, hh]

/-- An idle engine decodes a packet and runs what it reads. -/
theorem step_packet {s : State} {bytes : List Byte} {i : Instr} {moves : List HostMove} (hp : s.pending = [])
    (hh : s.host = .packet bytes :: moves) (hd : decodePacket bytes = .ok i) :
    step s = exec i (s.issue (isCreate i) moves) := by
  simp [step, State.fetch, State.fetchWith, hp, hh, hd]

theorem run_zero (s : State) : State.run 0 s = .next s := rfl

theorem run_succ {n : Nat} {s t : State} (h : step s = .next t) :
    State.run (n + 1) s = State.run n t := by
  simp only [State.run, h]

theorem run_add {m n : Nat} {s t : State} (h : State.run m s = .next t) :
    State.run (m + n) s = State.run n t := by
  induction m generalizing s with
  | zero => cases h; rw [Nat.zero_add]
  | succ m ih =>
    rw [Nat.add_right_comm]
    cases hs : step s with
    | next u => rw [run_succ hs]; exact ih (by rwa [run_succ hs] at h)
    | fault r => simp [State.run, hs] at h
    | refused r => simp [State.run, hs] at h

theorem core_run_succ (M : Host.Core) (n : Nat) (s : M.State) :
    M.run (n + 1) s =
      match M.step s with
      | .next t => M.run n t
      | .fault r => .fault r
      | .refused r => .refused r := rfl

/-- The host's run is this one. -/
theorem run_eq_core (n : Nat) (s : State) : Host.Core.run Sys2Proof.core n s = State.run n s := by
  induction n generalizing s with
  | zero => rfl
  | succ n ih =>
    refine (core_run_succ Sys2Proof.core n s).trans ?_
    have hc : Sys2Proof.core.step s = step s := rfl
    rw [hc, State.run]
    cases step s with
    | next t => exact ih t
    | fault r => rfl
    | refused r => rfl

/-- The platform accepts every pin these events configure. -/
abbrev Accepted (env : Env) (events : List Event) : Prop := ∀ p l, Event.cfg p l ∈ events → cfgOk env p = true

/-- Draining: a list of accepted events is performed one a step, in order, and with nothing behind it the request is
completed by the last one (R28, R30, R96). -/
theorem run_drain {events : List Event} (rest : List Instr) {s : State} (hne : events ≠ [])
    (hok : Accepted s.env events) :
    State.run events.length { s with pending := calls events ++ rest } =
      .next ({ s.performAll events with pending := rest }).settle := by
  induction events generalizing s with
  | nil => contradiction
  | cons e more ih =>
    have hstep : step { s with pending := calls (e :: more) ++ rest } =
        .next (({ s with pending := calls more ++ rest }).perform e).settle := by
      rw [step_pending (i := e.toInstr) (rest := calls more ++ rest) rfl]
      exact exec_toInstr_ok (fun p l he => hok p l (by simp [he]))
    by_cases hm : more = []
    · subst hm
      rw [List.length_singleton, run_succ hstep, run_zero]; rfl
    · have hset : (({ s with pending := calls more ++ rest }).perform e).settle =
          { s.perform e with pending := calls more ++ rest } := by
        rw [State.settle_of_pending (by simp [hm])]; rfl
      rw [List.length_cons, run_succ hstep, hset]
      exact ih (s := s.perform e) hm (fun p l h => hok p l (List.mem_cons_of_mem _ h))

/-! ### Requests and internal operations -/

theorem State.whenReady_ready {s : State} {c : EngineConfig} (hp : s.pending = []) (hr : s.ReadyWith c)
    (serve : EngineConfig → State) : s.whenReady serve = .next (serve c) := by
  simp [State.whenReady, State.whenIdle, hp, hr.1, hr.2]

theorem State.whenReady_uninit {s : State} (hp : s.pending = []) (hu : s.phase = .uninit)
    (serve : EngineConfig → State) : s.whenReady serve = .next (s.raise .notInitialized) := by
  simp [State.whenReady, State.whenIdle, hp, hu]

/-- What a CLEAR, PRINT or SETCURSOR that answers a next state has done. -/
theorem State.whenReady_next {s t : State} {serve : EngineConfig → State} (h : s.whenReady serve = .next t) :
    s.pending = [] ∧
      ((s.phase = .uninit ∧ t = s.raise .notInitialized) ∨ ∃ c, s.ReadyWith c ∧ t = serve c) := by
  unfold State.whenReady State.whenIdle at h
  cases hp : s.pending with
  | cons i rest => simp [hp] at h
  | nil =>
    refine ⟨rfl, ?_⟩
    cases hph : s.phase with
    | uninit => simp [hp, hph] at h; exact .inl ⟨rfl, h.symm⟩
    | ready =>
      cases hc : s.cfg with
      | none => simp [hp, hph, hc] at h
      | some c => simp [hp, hph, hc] at h; exact .inr ⟨c, ⟨hph, hc⟩, h.symm⟩

theorem State.callWith_wired {s : State} {c : EngineConfig} (h : s.wiring = some c)
    (events : EngineConfig → List Event) : s.callWith events = .next (s.call (events c)) := by
  simp [State.callWith, h]

/-- What an internal operation that answers a next state has done. -/
theorem State.callWith_next {s t : State} {events : EngineConfig → List Event} (h : s.callWith events = .next t) :
    ∃ c, s.wiring = some c ∧ t = s.call (events c) := by
  unfold State.callWith at h
  cases hw : s.wiring with
  | none => simp [hw] at h
  | some c => simp [hw] at h; exact ⟨c, rfl, h.symm⟩

theorem State.ReadyWith.wiring {s : State} {c : EngineConfig} (hr : s.ReadyWith c) (hf : s.inFlight = none) :
    s.wiring = some c := by simp [State.wiring, hf, hr.2]

/-- PRINT's loop: the whole text expanded, the row counter advanced (R111). -/
theorem State.printChar_fold (c : EngineConfig) (text : List Nat) (s : State) (row : Nat) (h : s.printRow = some row) :
    ∃ last, text.foldl (State.printChar c) s =
      { s with pending := s.pending ++ calls (printEvents s.env c row text), printRow := some last } := by
  induction text generalizing s row with
  | nil => exact ⟨row, by simp [printEvents, ← h]⟩
  | cons code rest ih =>
    rw [List.foldl_cons]
    by_cases hn : isNewline s.env code = true
    · obtain ⟨last, hl⟩ := ih (s.printChar c code) (row + 1) (by simp [State.printChar, hn, h])
      exact ⟨last, by rw [hl]; simp [State.printChar, hn, h, printEvents]⟩
    · obtain ⟨last, hl⟩ := ih (s.printChar c code) row (by simp [State.printChar, hn, h])
      exact ⟨last, by rw [hl]; simp [State.printChar, hn, printEvents]⟩

/-- A PRINT served: its events pending, the row counter discarded (R26, R111). -/
theorem execPrint_ready {s : State} {c : EngineConfig} (hp : s.pending = []) (hr : s.ReadyWith c) (text : List Nat) :
    execPrint text s =
      .next (({ s with printRow := none }).accept .command (printEvents s.env c 0 text)) := by
  rw [execPrint, State.whenReady_ready hp hr]
  obtain ⟨last, hl⟩ := State.printChar_fold c text { s with printRow := some 0, inFlight := some .command } 0 rfl
  dsimp only at hl ⊢
  rw [hl, hp]
  rfl

/-! ### Sizes -/

theorem write8Events_ne (c : EngineConfig) (v : Byte) (r : Bool) (settle : Nat) (d : Option Nat) :
    write8Events c v r settle d ≠ [] := by simp [write8Events]

theorem createEvents_ne (env : Env) (c : EngineConfig) : createEvents env c ≠ [] := by
  simp [createEvents, setupEvents, EngineConfig.pins]

theorem write8Events_accepted (env : Env) (c : EngineConfig) (v : Byte) (r : Bool) (settle : Nat) (d : Option Nat) :
    Accepted env (write8Events c v r settle d) := by
  intro p l h
  cases d <;> simp [write8Events, nibbleEvents, pulseEvents, initDelayEvents] at h

theorem printEvents_accepted (env env' : Env) (c : EngineConfig) (row : Nat) (text : List Nat) :
    Accepted env (printEvents env' c row text) := by
  induction text generalizing row with
  | nil => intro p l h; simp [printEvents] at h
  | cons code rest ih =>
    intro p l h
    simp only [printEvents] at h
    split at h
    · rcases List.mem_append.1 h with h | h
      · exact write8Events_accepted env _ _ _ _ _ p l h
      · exact ih _ p l h
    · rcases List.mem_append.1 h with h | h
      · exact write8Events_accepted env _ _ _ _ _ p l h
      · exact ih _ p l h

end Sys2Proof.Machine
end

