-- ==== Sys2Proof/Laws/Step.lean ====
section
/-! SUPPORT. What one step can do, said once: a busy step, the moves of the host, and what each request does. -/

namespace Sys2Proof.Machine

/-- A packet decodes to a request or to a reserved opcode, to nothing else. -/
theorem decodePacket_ok {bytes : List Byte} {i : Instr} (h : decodePacket bytes = .ok i) :
    (∃ r : Request, i = r.toInstr) ∨ ∃ opcode rest, i = .reservedRequest opcode rest := by
  cases bytes with
  | nil => cases h
  | cons opcode rest =>
    rcases opcode_cases opcode with rfl | rfl | rfl | rfl | h4
    · rw [decodePacket_create] at h; simp only [decodeCreate] at h
      repeat' split at h
      all_goals cases h
      exact .inl ⟨.create _, rfl⟩
    · rw [decodePacket_clear] at h; cases rest <;> cases h; exact .inl ⟨.clear, rfl⟩
    · rw [decodePacket_print] at h; simp only [decodePrint] at h
      repeat' split at h
      all_goals cases h
      exact .inl ⟨.print _, rfl⟩
    · rw [decodePacket_setcursor] at h; simp only [decodeSetcursor] at h
      repeat' split at h
      all_goals cases h
      exact .inl ⟨.setcursor _ _, rfl⟩
    · rw [decodePacket_reserved h4] at h; cases h; exact .inr ⟨_, _, rfl⟩

/-- No packet is taken for a frame. -/
theorem decodePacket_ne_unknownFrame (bytes : List Byte) : decodePacket bytes ≠ .unknownFrame := by
  cases bytes with
  | nil => exact fun h => nomatch h
  | cons opcode rest =>
    intro h
    rcases opcode_cases opcode with rfl | rfl | rfl | rfl | h4
    · rw [decodePacket_create] at h; simp only [decodeCreate] at h
      repeat' split at h
      all_goals cases h
    · rw [decodePacket_clear] at h; cases rest <;> cases h
    · rw [decodePacket_print] at h; simp only [decodePrint] at h
      repeat' split at h
      all_goals cases h
    · rw [decodePacket_setcursor] at h; simp only [decodeSetcursor] at h
      repeat' split at h
      all_goals cases h
    · rw [decodePacket_reserved h4] at h; cases h

/-- What one step of the machine can be: the head of `pending` run, or, when idle, one move of the host. -/
inductive StepCase (s t : State) : Prop where
  /-- Busy: the first pending instruction is run. -/
  | busy (i : Instr) (rest : List Instr) (hp : s.pending = i :: rest)
      (h : exec i { s with pending := rest } = .next t)
  /-- Idle, no move of the host left. -/
  | still (hp : s.pending = []) (hh : s.host = []) (h : t = s)
  /-- The host lets time pass. -/
  | wait (us : Nat) (moves : List HostMove) (hp : s.pending = []) (hh : s.host = .wait us :: moves)
      (h : t = { s with host := moves, display := s.display.elapse us })
  /-- The host resets the engine. -/
  | reset (moves : List HostMove) (hp : s.pending = []) (hh : s.host = .reset :: moves)
      (h : t = { s with host := moves }.resetEngine)
  /-- A malformed packet. -/
  | malformed (bytes : List Byte) (moves : List HostMove) (hp : s.pending = []) (hh : s.host = .packet bytes :: moves)
      (h : t = (s.issue false moves).raise .malformedRequest)
  /-- A reserved opcode. -/
  | reserved (opcode : Byte) (rest : List Byte) (moves : List HostMove) (hp : s.pending = [])
      (h : t = (s.issue false moves).raise (.unknownRequest opcode)) (hh : s.host.head? ≠ some .reset)
  /-- A request, as a packet or as such. -/
  | request (r : Request) (moves : List HostMove) (hp : s.pending = [])
      (h : exec r.toInstr (s.issue (isCreate r.toInstr) moves) = .next t) (hh : s.host.head? ≠ some .reset)

theorem step_cases {s t : State} (h : step s = .next t) : StepCase s t := by
  unfold step State.fetch State.fetchWith at h
  cases hp : s.pending with
  | cons i rest => simp only [hp] at h; exact .busy i rest hp h
  | nil =>
    simp only [hp] at h
    cases hh : s.host with
    | nil => simp only [hh] at h; cases h; exact .still hp hh rfl
    | cons m moves =>
      cases m with
      | wait us => simp only [hh] at h; cases h; exact .wait us moves hp hh (by rw [← hp])
      | reset => simp only [hh] at h; cases h; exact .reset moves hp hh (by rw [← hp])
      | request r => simp only [hh] at h; exact .request r moves hp h (by simp [hh])
      | packet bytes =>
        simp only [hh] at h
        cases hd : decodePacket bytes with
        | malformed => simp only [hd] at h; cases h; exact .malformed bytes moves hp hh rfl
        | unknownFrame => exact absurd hd (decodePacket_ne_unknownFrame bytes)
        | ok i =>
          simp only [hd] at h
          rcases decodePacket_ok hd with ⟨r, rfl⟩ | ⟨opcode, rest, rfl⟩
          · exact .request r moves hp h (by simp [hh])
          · refine .reserved opcode rest moves hp ?_ (by simp [hh])
            simp only [exec, execReservedRequest, State.whenIdle, State.issue_pending, hp] at h
            cases h; rfl

/-- What a request that answers a next state has done: refused or failed at once, begun a CREATE, or begun a command
of a READY engine with its events. -/
inductive RequestCase (s t : State) : Prop where
  /-- A refusal or an error: a result, nothing else. -/
  | turnedAway (x : Result) (hp : s.pending = []) (h : t = s.raise x)
  /-- A CREATE begun. -/
  | creating (config : RawConfig) (c : EngineConfig) (hp : s.pending = []) (hu : s.phase = .uninit)
      (hc : configOf config = some c)
      (h : t = { s with pending := calls (createEvents s.env c), inFlight := some (.create c) })
  /-- A command begun: a list of whole transfers. -/
  | serving (c : EngineConfig) (transfers : List (Byte × Bool)) (hp : s.pending = []) (hr : s.ReadyWith c)
      (h : t = ({ s with printRow := t.printRow }).accept .command
        (transfers.flatMap fun x : Byte × Bool => write8Events c x.1 x.2 tSettle none))
      (hrow : t.printRow = s.printRow ∨ t.printRow = none)

/-- PRINT's events are whole transfers, one a character. -/
theorem printEvents_transfers (env : Env) (c : EngineConfig) (row : Nat) (text : List Nat) :
    ∃ transfers : List (Byte × Bool), printEvents env c row text =
      transfers.flatMap fun x : Byte × Bool => write8Events c x.1 x.2 tSettle none := by
  induction text generalizing row with
  | nil => exact ⟨[], rfl⟩
  | cons code rest ih =>
    simp only [printEvents]
    split
    · obtain ⟨l, hl⟩ := ih (row + 1)
      exact ⟨(setDdramByte env.k (cursorAddr c.rows 0 (row + 1)), false) :: l, by rw [hl]; rfl⟩
    · obtain ⟨l, hl⟩ := ih row
      exact ⟨(trunc8 code, true) :: l, by rw [hl]; rfl⟩

theorem request_cases {s t : State} {r : Request} (h : exec r.toInstr s = .next t) : RequestCase s t := by
  cases r with
  | create config =>
    simp only [Request.toInstr, exec, execCreate, State.whenIdle] at h
    cases hp : s.pending with
    | cons i rest => simp only [hp] at h; cases h
    | nil =>
      simp only [hp] at h
      cases hph : s.phase with
      | ready => simp only [hph] at h; cases h; exact .turnedAway _ hp rfl
      | uninit =>
        simp only [hph] at h
        cases hc : configOf config with
        | none => simp only [hc] at h; cases h; exact .turnedAway _ hp rfl
        | some c =>
          simp only [hc] at h; cases h
          exact .creating config c hp hph hc (State.accept_of_ne (createEvents_ne _ _) _ _)
  | clear =>
    obtain ⟨hp, ⟨-, rfl⟩ | ⟨c, hr, rfl⟩⟩ := State.whenReady_next h
    · exact .turnedAway _ hp rfl
    · refine .serving c [(s.env.k.clearDisplay, false)] hp hr ?_ (.inl ?_) <;>
        simp only [clearEvents, cleardisplayEvents, commandEvents, State.accept_of_ne (write8Events_ne _ _ _ _ _),
          List.flatMap_cons, List.flatMap_nil, List.append_nil]
  | print text =>
    have h' : execPrint text s = .next t := h
    obtain ⟨hp, ⟨-, rfl⟩ | ⟨c, hr, -⟩⟩ := State.whenReady_next h
    · exact .turnedAway _ hp rfl
    · rw [execPrint_ready hp hr] at h'
      obtain ⟨l, hl⟩ := printEvents_transfers s.env c 0 text
      have key : ∀ (u : State), u.printRow = none → ∀ evs, (u.accept .command evs).printRow = none := by
        intro u hu evs
        rcases State.settle_cases { u with pending := calls evs, inFlight := some .command } with e | ⟨-, -, e⟩ | ⟨-, _, hf, -⟩
        · rw [State.accept, e]; exact hu
        · rw [State.accept, e]; exact hu
        · cases hf
      have hrow : t.printRow = none := by cases h'; exact key _ rfl _
      refine .serving c l hp hr ?_ (.inr hrow)
      rw [hrow, ← hl]; cases h'; rfl
  | setcursor col row =>
    obtain ⟨hp, ⟨-, rfl⟩ | ⟨c, hr, rfl⟩⟩ := State.whenReady_next h
    · exact .turnedAway _ hp rfl
    · split
      · exact .turnedAway _ hp rfl
      · refine .serving c [(setDdramByte s.env.k (cursorAddr c.rows col row.toNat), false)] hp hr ?_ (.inl ?_) <;>
          simp only [setcursorEvents, setddramaddrEvents, commandEvents,
            State.accept_of_ne (write8Events_ne _ _ _ _ _), List.flatMap_cons, List.flatMap_nil, List.append_nil]

end Sys2Proof.Machine
end

