-- ==== Sys2Proof/Laws/Transfer.lean ====
section
/-! SUPPORT. What the event lists are made of: whose pins, which levels enable is left at, and what a valid
configuration gives. -/

namespace Sys2Proof.Machine

theorem calls_injective {a b : List Event} (h : calls a = calls b) : a = b := by
  induction a generalizing b with
  | nil => cases b with
    | nil => rfl
    | cons y ys => simp at h
  | cons x xs ih =>
    cases b with
    | nil => simp at h
    | cons y ys => simp at h; rw [toInstr_injective h.1, ih h.2]

/-- The six pins of a valid configuration, pair by pair. -/
theorem EngineConfig.Ok.distinct {c : EngineConfig} (h : c.Ok) :
    (c.rs ≠ c.en ∧ c.rs ≠ c.d0 ∧ c.rs ≠ c.d1 ∧ c.rs ≠ c.d2 ∧ c.rs ≠ c.d3) ∧
    (c.en ≠ c.d0 ∧ c.en ≠ c.d1 ∧ c.en ≠ c.d2 ∧ c.en ≠ c.d3) ∧
    (c.d0 ≠ c.d1 ∧ c.d0 ≠ c.d2 ∧ c.d0 ≠ c.d3) ∧ (c.d1 ≠ c.d2 ∧ c.d1 ≠ c.d3) ∧ c.d2 ≠ c.d3 := by
  have hd := h.1
  simp only [allDistinct, EngineConfig.pins, Bool.and_eq_true, Bool.not_eq_true', List.contains_cons,
    List.contains_nil, Bool.or_false, Bool.or_eq_false_iff, beq_eq_false_iff_ne, and_true] at hd
  exact ⟨⟨hd.1.1, hd.1.2.1, hd.1.2.2.1, hd.1.2.2.2.1, hd.1.2.2.2.2⟩, ⟨hd.2.1.1, hd.2.1.2.1, hd.2.1.2.2.1, hd.2.1.2.2.2⟩,
    hd.2.2.1, ⟨hd.2.2.2.1.1, hd.2.2.2.1.2⟩, hd.2.2.2.2⟩

/-- A configuration that passes the checks satisfies the invariants of R21. -/
theorem configOf_ok {config : RawConfig} {c : EngineConfig} (h : configOf config = some c) : c.Ok := by
  unfold configOf at h
  split at h
  · next hv =>
    split at h
    · next h1 h2 h3 h4 h5 =>
      simp only [Option.map_eq_some_iff] at h
      obtain ⟨n, -, rfl⟩ := h
      simp only [validConfig, Bool.and_eq_true] at hv
      obtain ⟨⟨⟨⟨-, hc⟩, -⟩, -⟩, hd⟩ := hv
      simp only [checkV6, h1, h2, h3] at hd
      simp only [checkV3, h4, decide_eq_true_eq] at hc
      exact ⟨hd, by show 1 ≤ Int.toNat _; omega⟩
    · cases h
  · cases h

/-- A transfer ends with enable LOW. -/
theorem write8Events_enable (c : EngineConfig) (v : Byte) (r : Bool) (settle : Nat) (d : Option Nat) (out : Latches) :
    (Latches.afterAll (write8Events c v r settle d) out).get c.en = some .low := by
  cases d <;> simp [write8Events, nibbleEvents, pulseEvents, initDelayEvents, Latches.get_set]

/-- So does a list of transfers that is not empty. -/
theorem transfers_enable {c : EngineConfig} {transfers : List (Byte × Bool)} (h : transfers ≠ []) (out : Latches) :
    (Latches.afterAll (transfers.flatMap fun x : Byte × Bool => write8Events c x.1 x.2 tSettle none) out).get c.en =
      some .low := by
  induction transfers generalizing out with
  | nil => contradiction
  | cons x rest ih =>
    rw [List.flatMap_cons, Latches.afterAll_append]
    by_cases hr : rest = []
    · subst hr; simp only [List.flatMap_nil, Latches.afterAll_nil]; exact write8Events_enable c x.1 x.2 tSettle none out
    · exact ih hr _

/-- And a CREATE. -/
theorem createEvents_enable (env : Env) (c : EngineConfig) (out : Latches) :
    (Latches.afterAll (createEvents env c) out).get c.en = some .low := by
  simp only [createEvents, initEvents, Latches.afterAll_append, clearEvents, cleardisplayEvents, commandEvents,
    write8Events_enable]

/-- The events of a transfer are the engine's own, and none of them is a `Cfg`. -/
theorem write8Events_of (c : EngineConfig) (v : Byte) (r : Bool) {d : Option Nat}
    (hd : d = none ∨ d = some 4100 ∨ d = some 100) :
    ∀ e ∈ write8Events c v r tSettle d, Event.Of c e ∧ ∀ p l, e ≠ .cfg p l := by
  rcases hd with rfl | rfl | rfl <;>
    simp [write8Events, nibbleEvents, pulseEvents, initDelayEvents, Event.Of, EngineConfig.pins, tSettle, tPulse]

/-- The events of a CREATE are the engine's own. -/
theorem createEvents_of (env : Env) (c : EngineConfig) : ∀ e ∈ createEvents env c, Event.Of c e := by
  intro e he
  simp only [createEvents, initEvents, List.mem_append] at he
  rcases he with he | he
  · simp only [setupEvents, EngineConfig.pins, List.map_cons, List.map_nil, List.mem_cons, List.not_mem_nil,
      or_false] at he
    rcases he with rfl | rfl | rfl | rfl | rfl | rfl <;> simp [Event.Of, EngineConfig.pins]
  · rcases he with ((((he | he) | he) | he) | he) | he <;>
      exact (write8Events_of c _ _ (by simp [tInit1, tInit2]) e he).1

end Sys2Proof.Machine
end

