-- ==== Sys2Proof/Laws/Observer.lean ====
section
/-! SUPPORT. What the receiver latches: an event list piece by piece, and a transfer as its two samples. -/

namespace Sys2Proof.Machine

theorem latchFrom_append (c : EngineConfig) (a b : List Event) (out : Latches) :
    latchFrom c out (a ++ b) = latchFrom c out a ++ latchFrom c (Latches.afterAll a out) b := by
  induction a generalizing out with
  | nil => rfl
  | cons e rest ih => simp only [List.cons_append, latchFrom]; split <;> simp [ih]

/-- A write on another pin is no falling edge of enable. -/
theorem isFallingEdge_wr_ne {c : EngineConfig} {p : PinId} (h : p ≠ c.en) (l : Level) (out : Latches) :
    isFallingEdge c out (.wr p l) = false := by
  cases l <;> simp [isFallingEdge, h]

/-- A write of enable is a falling edge when it drives LOW a line that is HIGH (R166). -/
theorem isFallingEdge_enable (c : EngineConfig) (l : Level) (out : Latches) :
    isFallingEdge c out (.wr c.en l) = (l == .low && out.get c.en == some .high) := by
  cases l <;> simp [isFallingEdge, isHigh]

@[simp] theorem isFallingEdge_sleep (c : EngineConfig) (d : Nat) (out : Latches) :
    isFallingEdge c out (.sleep d) = false := rfl

theorem lvl_isHigh (b : Bool) : (some (lvl b) == some Level.high) = b := by cases b <;> rfl

theorem nibbleOfBits_bits (n : Nibble) :
    nibbleOfBits (n.getLsbD 0) (n.getLsbD 1) (n.getLsbD 2) (n.getLsbD 3) = n := by
  revert n; decide

theorem joinNibbles_halves (v : Byte) : joinNibbles (highNibble v) (lowNibble v) = v := by revert v; decide

/-- A nibble and its pulse are latched as one sample, with the register select that stands. -/
theorem latchFrom_half {c : EngineConfig} (h : c.Ok) {out : Latches} {r : Bool} (n : Nibble)
    (hrs : out.get c.rs = some (lvl r)) (hen : out.get c.en ≠ some .high) :
    latchFrom c out (nibbleEvents c n ++ pulseEvents c) = [⟨r, n⟩] := by
  obtain ⟨⟨a1, a2, a3, a4, a5⟩, ⟨b1, b2, b3, b4⟩, ⟨c1, c2, c3⟩, ⟨d1, d2⟩, e1⟩ := h.distinct
  have hen' : (out.get c.en == some .high) = false := by simpa using hen
  simp only [nibbleEvents, pulseEvents, List.cons_append, List.nil_append, latchFrom, isFallingEdge_wr_ne b1.symm,
    isFallingEdge_wr_ne b2.symm, isFallingEdge_wr_ne b3.symm, isFallingEdge_wr_ne b4.symm, isFallingEdge_enable,
    isFallingEdge_sleep, Latches.after_wr, Latches.after_sleep, Latches.get_set, sampleOf, isHigh]
  simp only [b1, b2, b3, b4, a1, a2, a3, a4, a5, c1, c2, c3, d1, d2, e1, c1.symm, c2.symm, c3.symm, d1.symm, d2.symm,
    e1.symm, b1.symm, b2.symm, b3.symm, b4.symm, if_true, if_false, hen', hrs, lvl_isHigh, nibbleOfBits_bits]
  simp

/-- A nibble and its pulse leave enable LOW and register select alone. -/
theorem afterAll_half {c : EngineConfig} (h : c.Ok) (out : Latches) (n : Nibble) :
    (Latches.afterAll (nibbleEvents c n ++ pulseEvents c) out).get c.en = some .low ∧
    (Latches.afterAll (nibbleEvents c n ++ pulseEvents c) out).get c.rs = out.get c.rs := by
  obtain ⟨⟨a1, a2, a3, a4, a5⟩, -⟩ := h.distinct
  simp [nibbleEvents, pulseEvents, Latches.get_set, a1, a2, a3, a4, a5]

/-- WRITE8 in two halves, each a nibble and its pulse. -/
theorem write8Events_halves (c : EngineConfig) (v : Byte) (r : Bool) (settle : Nat) (d : Option Nat) :
    write8Events c v r settle d =
      [.sleep settle, .wr c.rs (lvl r)] ++ ((nibbleEvents c (highNibble v) ++ pulseEvents c) ++
        (initDelayEvents d ++ (nibbleEvents c (lowNibble v) ++ pulseEvents c))) := by
  simp [write8Events]

/-- A transfer is latched as its two nibbles, high first (R41, R166). -/
theorem latchFrom_write8 {c : EngineConfig} (h : c.Ok) (v : Byte) (r : Bool) (settle : Nat) (d : Option Nat)
    {out : Latches} (hen : out.get c.en ≠ some .high) :
    latchFrom c out (write8Events c v r settle d) = [⟨r, highNibble v⟩, ⟨r, lowNibble v⟩] := by
  obtain ⟨⟨a1, -⟩, -⟩ := h.distinct
  have hd : ∀ o, latchFrom c o (initDelayEvents d) = [] ∧ Latches.afterAll (initDelayEvents d) o = o := by
    intro o; cases d <;> simp [initDelayEvents, latchFrom]
  have h1 := afterAll_half h (Latches.afterAll [.sleep settle, .wr c.rs (lvl r)] out) (highNibble v)
  rw [write8Events_halves, latchFrom_append c [.sleep settle, .wr c.rs (lvl r)],
    latchFrom_append c (nibbleEvents c (highNibble v) ++ pulseEvents c), latchFrom_append c (initDelayEvents d),
    (hd _).1, (hd _).2, latchFrom_half h (r := r), latchFrom_half h (r := r)]
  · simp [latchFrom, isFallingEdge_wr_ne a1]
  · rw [h1.2]; simp [Latches.get_set]
  · rw [h1.1]; simp
  · simp [Latches.get_set]
  · simpa [Latches.get_set, a1.symm] using hen

end Sys2Proof.Machine
end

