-- ==== Sys2Proof/Laws/PerInstr.lean ====
section
/-! SUPPORT. Per-instruction statements: the encoded form of each instruction against its row of
spec/opcode_table.json: the first byte and the length of a packet, the masked word of a frame, or no form at all. -/

namespace Sys2Proof.Laws.TableRow

/-- A packet whose byte 0 is `opcode` and whose length is `n`. -/
def IsPacket (i : Instr) (opcode : Byte) (n : Nat) : Prop :=
  ∃ rest, encode i = some (.packet (opcode :: rest)) ∧ rest.length + 1 = n

/-- A frame that matches the row's mask and match. -/
def IsFrame (i : Instr) (mask word : BitVec 9) : Prop :=
  ∃ w, encode i = some (.frame w) ∧ w &&& mask = word

/-- The row of the table, instruction by instruction (R62, R82). -/
def Statement (i : Instr) : Prop :=
  WellFormed i →
  match i with
  | .create config => IsPacket i 0x00 (6 + (config.dataPins.getD []).length)
  | .clear => IsPacket i 0x01 1
  | .print text => IsPacket i 0x02 (3 + 4 * text.length)
  | .setcursor _ _ => IsPacket i 0x03 5
  | .reservedRequest opcode rest => 4 ≤ opcode.toNat ∧ IsPacket i opcode (1 + rest.length)
  | .rawInit1 => IsFrame i 0x1FF 0x033
  | .rawInit2 => IsFrame i 0x1FF 0x032
  | .displaycontrol => IsFrame i 0x1FF 0x00C
  | .functionset => IsFrame i 0x1FF 0x028
  | .entrymodeset => IsFrame i 0x1FF 0x006
  | .cleardisplay => IsFrame i 0x1FF 0x001
  | .setddramaddr _ => IsFrame i 0x180 0x080
  | .data _ => IsFrame i 0x100 0x100
  | .returnhome _ => IsFrame i 0x1FE 0x002
  | .cursorshift _ _ _ => IsFrame i 0x1F0 0x010
  | .setcgramaddr _ => IsFrame i 0x1C0 0x040
  | .write8 _ _ _ _ => encode i = none
  | .nibble _ => encode i = none
  | .pulse => encode i = none
  | .cfg _ _ => encode i = none
  | .wr _ _ => encode i = none
  | .sleep _ => encode i = none

theorem create (config : RawConfig) : Statement (.create config) := fun _ =>
  ⟨_, rfl, by
    simp only [List.append_eq, List.nil_append, List.cons_append, List.length_cons, List.length_append,
      List.length_map, List.length_nil]
    omega⟩

theorem clear : Statement .clear := fun _ => ⟨_, rfl, rfl⟩

theorem print (text : List Nat) : Statement (.print text) := fun _ =>
  ⟨_, rfl, by
    simp only [List.append_eq, List.nil_append, List.cons_append, List.length_cons, flatMap_encodeChar_length]
    omega⟩

theorem setcursor (col : Nat) (row : Int) : Statement (.setcursor col row) := fun _ => ⟨_, rfl, rfl⟩

theorem reservedRequest (opcode : Byte) (rest : List Byte) : Statement (.reservedRequest opcode rest) := fun h =>
  ⟨by simpa [WellFormed, Instr.wellFormed] using h, rest, rfl, Nat.add_comm _ _⟩

theorem rawInit1 : Statement .rawInit1 := fun _ => ⟨_, rfl, by decide⟩
theorem rawInit2 : Statement .rawInit2 := fun _ => ⟨_, rfl, by decide⟩
theorem displaycontrol : Statement .displaycontrol := fun _ => ⟨_, rfl, by decide⟩
theorem functionset : Statement .functionset := fun _ => ⟨_, rfl, by decide⟩
theorem entrymodeset : Statement .entrymodeset := fun _ => ⟨_, rfl, by decide⟩
theorem cleardisplay : Statement .cleardisplay := fun _ => ⟨_, rfl, by decide⟩

theorem setddramaddr (addr : Nat) : Statement (.setddramaddr addr) := fun h => by
  have h1 : addr < 128 := by simpa [WellFormed, Instr.wellFormed] using h
  have key : ∀ a : Fin 128, BitVec.ofNat 9 (0x080 + a.val) &&& 0x180 = 0x080 := by decide
  exact ⟨_, rfl, key ⟨addr, h1⟩⟩

set_option maxRecDepth 4000 in
theorem data (code : Nat) : Statement (.data code) := fun h => by
  have h1 : code < 256 := by simpa [WellFormed, Instr.wellFormed] using h
  have key : ∀ a : Fin 256, BitVec.ofNat 9 (0x100 + a.val) &&& 0x100 = 0x100 := by decide
  exact ⟨_, rfl, key ⟨code, h1⟩⟩

theorem returnhome (x : Bool) : Statement (.returnhome x) := fun _ => ⟨_, rfl, by cases x <;> decide⟩

theorem cursorshift (s r : Bool) (xx : BitVec 2) : Statement (.cursorshift s r xx) := fun _ =>
  ⟨_, rfl, by revert s r xx; decide⟩

theorem setcgramaddr (addr : BitVec 6) : Statement (.setcgramaddr addr) := fun _ => ⟨_, rfl, by revert addr; decide⟩

theorem write8 (v : Byte) (rsFlag : Bool) (settle : Nat) (initDelay : Option Nat) :
    Statement (.write8 v rsFlag settle initDelay) := fun _ => rfl
theorem nibble (n : Nibble) : Statement (.nibble n) := fun _ => rfl
theorem pulse : Statement .pulse := fun _ => rfl
theorem cfg (p : PinId) (l : Level) : Statement (.cfg p l) := fun _ => rfl
theorem wr (p : PinId) (l : Level) : Statement (.wr p l) := fun _ => rfl
theorem sleep (d : Nat) : Statement (.sleep d) := fun _ => rfl

end Sys2Proof.Laws.TableRow
end

