-- ==== Sys2Proof/Machine/AnyPin.lean ====
section
/-! DEFINITION. The machine over any type of pin identifiers (R10: "an opaque type with decidable equality; the model
takes it as a type parameter"). `exec` and `step`, whose form the host fixes without arguments, are this machine at
`PinId` (Laws/Rename.lean: `exec_eq_execOf`, `step_eq_stepOf`). -/

namespace Sys2Proof.Machine

/-! The pin identifiers are a type parameter (R10). -/
variable {P : Type}

/-- The meaning of an instruction over the pin type `P`. -/
def execOf [DecidableEq P] (i : Instr P) (s : State P) : Host.Outcome (State P) Fault Refusal :=
  match i with
  | .create config => execCreate config s
  | .clear => execClear s
  | .print text => execPrint text s
  | .setcursor col row => execSetcursor col row s
  | .reservedRequest opcode rest => execReservedRequest opcode rest s
  | .rawInit1 => execRawInit1 s
  | .rawInit2 => execRawInit2 s
  | .displaycontrol => execDisplaycontrol s
  | .functionset => execFunctionset s
  | .entrymodeset => execEntrymodeset s
  | .cleardisplay => execCleardisplay s
  | .setddramaddr addr => execSetddramaddr addr s
  | .data code => execData code s
  | .returnhome x => execReturnhome x s
  | .cursorshift sBit rBit xx => execCursorshift sBit rBit xx s
  | .setcgramaddr addr => execSetcgramaddr addr s
  | .write8 v rsFlag settle initDelay => execWrite8 v rsFlag settle initDelay s
  | .nibble n => execNibble n s
  | .pulse => execPulse s
  | .cfg p l => execCfg p l s
  | .wr p l => execWr p l s
  | .sleep d => execSleep d s

/-- One step over the pin type `P`. The form a packet gives a pin is no part of the abstract model (R10, R62), so the
packet decoder is an argument; no request of R60 needs one. -/
def stepOf [DecidableEq P] (decode : List Byte → Decoded P) (s : State P) : Host.Outcome (State P) Fault Refusal :=
  match s.fetchWith decode with
  | .run i t => execOf i t
  | .done t => .next t

end Sys2Proof.Machine
end

