-- ==== Sys2Proof/Laws/Rename.lean ====
section
/-! SUPPORT. R10: the model takes the pin type as a parameter, opaque with decidable equality. `exec` and `step` are the
machine over any pin type taken at `PinId`; and a change of pin type along any injective map commutes with every
instruction and every step, so equality is all the machine reads of a pin. -/

namespace Sys2Proof.Machine.Rename

/-! ### The machine at `PinId` -/

theorem exec_eq_execOf (i : Instr) (s : State) : exec i s = execOf i s := by cases i <;> rfl

theorem step_eq_stepOf (s : State) : step s = stepOf decodePacket s := by
  simp only [step, stepOf, State.fetch]
  cases s.fetchWith decodePacket with
  | run i t => exact exec_eq_execOf i t
  | done t => rfl

variable {P Q : Type} (f : P → Q)

/-! ### Renaming the pins of everything that names one -/

def raw (config : RawConfig P) : RawConfig Q :=
  { config with
    rs := config.rs.map f
    en := config.en.map f
    dataPins := config.dataPins.map fun ps => ps.map f }

def event : Event P → Event Q
  | .cfg p l => .cfg (f p) l
  | .wr p l => .wr (f p) l
  | .sleep d => .sleep d

def instr : Instr P → Instr Q
  | .create config => .create (raw f config)
  | .clear => .clear
  | .print text => .print text
  | .setcursor col row => .setcursor col row
  | .reservedRequest opcode rest => .reservedRequest opcode rest
  | .rawInit1 => .rawInit1
  | .rawInit2 => .rawInit2
  | .displaycontrol => .displaycontrol
  | .functionset => .functionset
  | .entrymodeset => .entrymodeset
  | .cleardisplay => .cleardisplay
  | .setddramaddr addr => .setddramaddr addr
  | .data code => .data code
  | .returnhome x => .returnhome x
  | .cursorshift s r xx => .cursorshift s r xx
  | .setcgramaddr addr => .setcgramaddr addr
  | .write8 v rsFlag settle initDelay => .write8 v rsFlag settle initDelay
  | .nibble n => .nibble n
  | .pulse => .pulse
  | .cfg p l => .cfg (f p) l
  | .wr p l => .wr (f p) l
  | .sleep d => .sleep d

def request : Request P → Request Q
  | .create config => .create (raw f config)
  | .clear => .clear
  | .print text => .print text
  | .setcursor col row => .setcursor col row

def config (c : EngineConfig P) : EngineConfig Q :=
  { c with rs := f c.rs, en := f c.en, d0 := f c.d0, d1 := f c.d1, d2 := f c.d2, d3 := f c.d3 }

def result : Result P → Result Q
  | .success => .success
  | .configurationError => .configurationError
  | .hardwareAccessError p => .hardwareAccessError (f p)
  | .notInitialized => .notInitialized
  | .alreadyInitialized => .alreadyInitialized
  | .rowIndexUndefined row => .rowIndexUndefined row
  | .unknownRequest opcode => .unknownRequest opcode
  | .malformedRequest => .malformedRequest

def inFlight : InFlight P → InFlight Q
  | .create c => .create (config f c)
  | .command => .command

def move : HostMove P → HostMove Q
  | .packet bytes => .packet bytes
  | .request r => .request (request f r)
  | .wait us => .wait us
  | .reset => .reset

def decoded : Decoded P → Decoded Q
  | .ok i => .ok (instr f i)
  | .malformed => .malformed
  | .unknownFrame => .unknownFrame

def latches (out : Latches P) : Latches Q := out.map fun e => (f e.1, e.2)

def env (e : Env P) : Env Q :=
  { e with
    platform :=
      match e.platform with
      | .allBut bad => .allBut (bad.map f)
      | .only good => .only (good.map f) }

def state (s : State P) : State Q :=
  { s with
    cfg := s.cfg.map (config f)
    out := latches f s.out
    pending := s.pending.map (instr f)
    trace := s.trace.map (event f)
    inFlight := s.inFlight.map (inFlight f)
    host := s.host.map (move f)
    results := s.results.map (result f)
    env := env f s.env }

def outcome : Host.Outcome (State P) Fault Refusal → Host.Outcome (State Q) Fault Refusal
  | .next t => .next (state f t)
  | .fault r => .fault r
  | .refused r => .refused r

/-! ### Pins and checks -/

variable {f} [DecidableEq P] [DecidableEq Q] (hf : Function.Injective f)
include hf

theorem contains_map (p : P) (ps : List P) : (ps.map f).contains (f p) = ps.contains p := by
  induction ps with
  | nil => rfl
  | cons q rest ih =>
    have hq : (f p == f q) = (p == q) := by rw [Bool.eq_iff_iff]; simp [hf.eq_iff]
    simp only [List.map_cons, List.contains_cons, ih, hq]

theorem allDistinct_map (ps : List P) : allDistinct (ps.map f) = allDistinct ps := by
  induction ps with
  | nil => rfl
  | cons p rest ih => simp only [List.map_cons, allDistinct, contains_map hf, ih]

theorem cfgOk_env (e : Env P) (p : P) : cfgOk (env f e) (f p) = cfgOk e p := by
  cases h : e.platform <;> simp only [cfgOk, env, h, contains_map hf]

theorem validConfig_raw (c : RawConfig P) : validConfig (raw f c) = validConfig c := by
  have h6 : checkV6 (raw f c) = checkV6 c := by
    obtain ⟨rs, en, ps, columns, rows⟩ := c
    cases rs <;> cases en <;> cases ps <;> simp only [checkV6, raw, Option.map_some, Option.map_none]
    exact allDistinct_map hf (_ :: _ :: _)
  have h2 : checkV2 (raw f c) = checkV2 c := by
    obtain ⟨rs, en, ps, columns, rows⟩ := c
    cases ps <;> simp [checkV2, raw]
  have h1 : checkV1 (raw f c) = checkV1 c := by simp [checkV1, raw]
  simp only [validConfig, h1, h2, h6]; rfl

theorem configOf_raw (c : RawConfig P) : configOf (raw f c) = (configOf c).map (config f) := by
  unfold configOf
  rw [validConfig_raw hf]
  split
  · obtain ⟨rs, en, ps, columns, rows⟩ := c
    rcases rs with _ | rs <;> rcases en with _ | en <;> 
      rcases ps with _ | (_ | ⟨a, _ | ⟨b, _ | ⟨d, _ | ⟨g, _ | ⟨x, l⟩⟩⟩⟩⟩) <;>
      rcases columns with _ | columns <;> rcases rows with _ | rows <;>
      simp [raw, config, Option.map_map, Function.comp_def]
  · rfl

/-! ### Latches and the receiver's view -/

theorem get_latches (p : P) (out : Latches P) : Latches.get (f p) (latches f out) = Latches.get p out := by
  induction out with
  | nil => rfl
  | cons e rest ih =>
    simp only [latches, List.map_cons, Latches.get, hf.eq_iff] at ih ⊢
    split
    · rfl
    · exact ih

theorem set_latches (p : P) (l : Level) (out : Latches P) :
    Latches.set (f p) l (latches f out) = latches f (Latches.set p l out) := by
  induction out with
  | nil => rfl
  | cons e rest ih =>
    simp only [latches, List.map_cons, Latches.set, hf.eq_iff] at ih ⊢
    split <;> simp_all

theorem after_latches (e : Event P) (out : Latches P) :
    (latches f out).after (event f e) = latches f (out.after e) := by
  cases e with
  | cfg p l => exact set_latches hf p l out
  | wr p l => exact set_latches hf p l out
  | sleep d => rfl

theorem isHigh_latches (p : P) (out : Latches P) : isHigh (latches f out) (f p) = isHigh out p := by
  rw [isHigh, get_latches hf]; rfl

theorem sampleOf_config (c : EngineConfig P) (out : Latches P) :
    sampleOf (config f c) (latches f out) = sampleOf c out := by
  simp only [sampleOf, config, isHigh_latches hf]

theorem isFallingEdge_config (c : EngineConfig P) (out : Latches P) (e : Event P) :
    isFallingEdge (config f c) (latches f out) (event f e) = isFallingEdge c out e := by
  have h : ∀ p, (f p == f c.en) = (p == c.en) := by intro p; rw [Bool.eq_iff_iff]; simp [hf.eq_iff]
  have g : isHigh (latches f out) (config f c).en = isHigh out c.en := isHigh_latches hf _ _
  cases e with
  | cfg p l => cases l <;> simp only [event, isFallingEdge, config, h] <;> rw [← g] <;> rfl
  | wr p l => cases l <;> simp only [event, isFallingEdge, config, h] <;> rw [← g] <;> rfl
  | sleep d => rfl

theorem display_after (e : Env P) (wiring : Option (EngineConfig P)) (out : Latches P) (ev : Event P) (x : Display) :
    x.after (env f e) (wiring.map (config f)) (latches f out) (event f ev) = x.after e wiring out ev := by
  cases wiring with
  | none => rfl
  | some c =>
    simp only [Option.map_some, Display.after, isFallingEdge_config hf, sampleOf_config hf]
    rfl

/-! ### Operations -/

omit [DecidableEq P] [DecidableEq Q] hf in
theorem calls_event (events : List (Event P)) : calls (events.map (event f)) = (calls events).map (instr f) := by
  simp only [calls, List.map_map]
  congr 1
  funext e
  cases e <;> rfl

omit [DecidableEq P] [DecidableEq Q] hf in
theorem wiring_state (s : State P) : (state f s).wiring = s.wiring.map (config f) := by
  simp only [State.wiring, state]
  rcases s.inFlight with _ | (c | _) <;> rfl

theorem perform_state (e : Event P) (s : State P) : (state f s).perform (event f e) = state f (s.perform e) := by
  have h := display_after hf s.env s.wiring s.out e s.display
  rw [← wiring_state] at h
  simp only [State.perform]
  refine State.mk.injEq .. |>.mpr ⟨rfl, rfl, after_latches hf e s.out, rfl, rfl, ?_, rfl, rfl, rfl, h, rfl⟩
  simp [state]

omit [DecidableEq P] [DecidableEq Q] hf in
theorem raise_state (r : Result P) (s : State P) : (state f s).raise (result f r) = state f (s.raise r) := by
  simp [State.raise, state]

omit [DecidableEq P] [DecidableEq Q] hf in
theorem settle_state (s : State P) : (state f s).settle = state f s.settle := by
  rcases s with ⟨phase, cfg, out, pending, printRow, trace, fl, host, results, display, en⟩
  rcases pending with _ | ⟨i, rest⟩
  · rcases fl with _ | (c | _) <;> simp [State.settle, state, inFlight, result]
  · rfl

omit [DecidableEq P] [DecidableEq Q] hf in
theorem accept_state (fl : InFlight P) (events : List (Event P)) (s : State P) :
    (state f s).accept (inFlight f fl) (events.map (event f)) = state f (s.accept fl events) := by
  rw [State.accept, State.accept, ← settle_state, calls_event]; rfl

omit [DecidableEq P] [DecidableEq Q] hf in
theorem call_state (events : List (Event P)) (s : State P) :
    (state f s).call (events.map (event f)) = state f (s.call events) := by
  simp [State.call, state, calls_event]

omit [DecidableEq P] [DecidableEq Q] hf in
theorem whenIdle_state (s : State P) (answer : Host.Outcome (State P) Fault Refusal) :
    (state f s).whenIdle (outcome f answer) = outcome f (s.whenIdle answer) := by
  rcases s with ⟨phase, cfg, out, pending, printRow, trace, fl, host, results, display, en⟩
  cases pending <;> rfl

omit [DecidableEq P] [DecidableEq Q] hf in
theorem whenReady_state (s : State P) {serve : EngineConfig P → State P} {serve' : EngineConfig Q → State Q}
    (h : ∀ c, serve' (config f c) = state f (serve c)) :
    (state f s).whenReady serve' = outcome f (s.whenReady serve) := by
  rw [State.whenReady, State.whenReady, ← whenIdle_state]
  congr 1
  have hr := raise_state (f := f) .notInitialized s
  rcases s with ⟨phase, cfg, out, pending, printRow, trace, fl, host, results, display, en⟩
  cases phase <;> cases cfg <;> simp_all [state, outcome, result]

omit [DecidableEq P] [DecidableEq Q] hf in
theorem callWith_state (s : State P) {events : EngineConfig P → List (Event P)}
    {events' : EngineConfig Q → List (Event Q)}
    (h : ∀ c, events' (config f c) = (events c).map (event f)) :
    (state f s).callWith events' = outcome f (s.callWith events) := by
  simp only [State.callWith, wiring_state]
  cases s.wiring with
  | none => rfl
  | some c => simp only [Option.map_some, h, call_state]; rfl

/-! ### Event lists -/

omit [DecidableEq P] [DecidableEq Q] hf

theorem write8Events_config (c : EngineConfig P) (v : Byte) (r : Bool) (settle : Nat) (d : Option Nat) :
    write8Events (config f c) v r settle d = (write8Events c v r settle d).map (event f) := by
  cases d <;> rfl

theorem createEvents_config (e : Env P) (c : EngineConfig P) :
    createEvents (env f e) (config f c) = (createEvents e c).map (event f) := by
  simp only [createEvents, initEvents, List.map_append, rawInit1Events, rawInit2Events, displaycontrolEvents,
    functionsetEvents, entrymodesetEvents, clearEvents, cleardisplayEvents, commandEvents, ← write8Events_config]
  rfl

/-! ### PRINT's loop -/

theorem printChar_state (c : EngineConfig P) (s : State P) (code : Nat) :
    State.printChar (config f c) (state f s) code = state f (State.printChar c s code) := by
  have hn : isNewline (state f s).env code = isNewline s.env code := rfl
  simp only [State.printChar, hn]
  split <;> simp only [state, List.map_append, ← calls_event] <;> rfl

theorem printFold_state (c : EngineConfig P) (text : List Nat) (s : State P) :
    text.foldl (State.printChar (config f c)) (state f s) = state f (text.foldl (State.printChar c) s) := by
  induction text generalizing s with
  | nil => rfl
  | cons code rest ih => rw [List.foldl_cons, printChar_state, ih]; rfl

/-! ### Fetching -/

def fetched : Fetched P → Fetched Q
  | .run i s => .run (instr f i) (state f s)
  | .done s => .done (state f s)

theorem isCreate_instr (i : Instr P) : isCreate (instr f i) = isCreate i := by cases i <;> rfl

theorem toInstr_request (r : Request P) : (request f r).toInstr = instr f r.toInstr := by cases r <;> rfl

theorem issue_state (create : Bool) (moves : List (HostMove P)) (s : State P) :
    (state f s).issue create (moves.map (move f)) = state f (s.issue create moves) := rfl

theorem fetchWith_state (decode : List Byte → Decoded P) (s : State P) :
    (state f s).fetchWith (fun bytes => decoded f (decode bytes)) = fetched (f := f) (s.fetchWith decode) := by
  rcases s with ⟨phase, cfg, out, pending, printRow, trace, fl, host, results, display, en⟩
  rcases pending with _ | ⟨i, rest⟩
  · rcases host with _ | ⟨m, moves⟩
    · rfl
    · cases m with
      | wait us => rfl
      | reset => rfl
      | request r =>
        simp only [State.fetchWith, state, List.map_nil, List.map_cons, move, toInstr_request, isCreate_instr, fetched]
        rfl
      | packet bytes =>
        simp only [State.fetchWith, state, List.map_nil, List.map_cons, move]
        cases decode bytes with
        | ok i => simp only [decoded, isCreate_instr, fetched]; rfl
        | malformed =>
          exact congrArg Fetched.done (raise_state .malformedRequest (State.issue false moves
            ⟨phase, cfg, out, [], printRow, trace, fl, .packet bytes :: moves, results, display, en⟩))
        | unknownFrame =>
          exact congrArg Fetched.done (raise_state .malformedRequest (State.issue false moves
            ⟨phase, cfg, out, [], printRow, trace, fl, .packet bytes :: moves, results, display, en⟩))
  · rfl

/-! ### Instructions and steps -/

variable [DecidableEq P] [DecidableEq Q]

/-- Every instruction commutes with an injective change of pin type. -/
theorem execOf_state (hf : Function.Injective f) (i : Instr P) (s : State P) :
    execOf (instr f i) (state f s) = outcome f (execOf i s) := by
  cases i with
  | create rawConfig =>
    simp only [instr, execOf, execCreate]
    rw [← whenIdle_state]
    congr 1
    have h1 := raise_state (f := f) .alreadyInitialized s
    have h2 := raise_state (f := f) .configurationError s
    have hp : (state f s).phase = s.phase := rfl
    rw [hp, configOf_raw hf]
    cases s.phase with
    | ready => exact congrArg Host.Outcome.next h1
    | uninit =>
      cases configOf rawConfig with
      | none => exact congrArg Host.Outcome.next h2
      | some c =>
        have h3 := accept_state (f := f) (.create c) (createEvents s.env c) s
        rw [← createEvents_config] at h3
        exact congrArg Host.Outcome.next h3
  | clear => exact whenReady_state s fun c => accept_state .command (clearEvents s.env c) s
  | print text =>
    refine whenReady_state s fun c => ?_
    rw [← settle_state]
    exact congrArg (fun u : State Q => ({ u with printRow := none } : State Q).settle)
      (printFold_state c text { s with printRow := some 0, inFlight := some .command })
  | setcursor col row =>
    refine whenReady_state s fun c => ?_
    split
    · exact raise_state (.rowIndexUndefined row) s
    · exact accept_state .command (setcursorEvents s.env c col row.toNat) s
  | reservedRequest opcode rest =>
    simp only [instr, execOf, execReservedRequest]
    rw [← whenIdle_state]
    exact congrArg _ (congrArg Host.Outcome.next (raise_state (.unknownRequest opcode) s))
  | rawInit1 => exact callWith_state s fun c => rfl
  | rawInit2 => exact callWith_state s fun c => rfl
  | displaycontrol => exact callWith_state s fun c => rfl
  | functionset => exact callWith_state s fun c => rfl
  | entrymodeset => exact callWith_state s fun c => rfl
  | cleardisplay => exact callWith_state s fun c => rfl
  | setddramaddr addr => exact callWith_state s fun c => rfl
  | data code => exact callWith_state s fun c => rfl
  | returnhome x => rfl
  | cursorshift a b xx => rfl
  | setcgramaddr addr => rfl
  | write8 v r settle d => exact callWith_state s fun c => write8Events_config c v r settle d
  | nibble n => exact callWith_state s fun c => rfl
  | pulse => exact callWith_state s fun c => rfl
  | cfg p l =>
    have hk : cfgOk (state f s).env (f p) = cfgOk s.env p := cfgOk_env hf s.env p
    simp only [instr, execOf, execCfg, hk]
    split
    · rw [show Event.cfg (f p) l = event f (.cfg p l) from rfl, perform_state hf, settle_state]; rfl
    · exact congrArg Host.Outcome.next (raise_state (.hardwareAccessError p) s)
  | wr p l =>
    simp only [instr, execOf, execWr]
    rw [show Event.wr (f p) l = event f (.wr p l) from rfl, perform_state hf, settle_state]; rfl
  | sleep d =>
    simp only [instr, execOf, execSleep]
    rw [show Event.sleep d = event f (.sleep d) from rfl, perform_state hf, settle_state]; rfl

/-- Every step commutes with an injective change of pin type, packets being read accordingly. -/
theorem stepOf_state (hf : Function.Injective f) (decode : List Byte → Decoded P) (s : State P) :
    stepOf (fun bytes => decoded f (decode bytes)) (state f s) = outcome f (stepOf decode s) := by
  simp only [stepOf, fetchWith_state]
  cases s.fetchWith decode with
  | run i t => exact execOf_state hf i t
  | done t => rfl

end Sys2Proof.Machine.Rename
end

