-- ==== Sys2Proof/Tests/Slice0.lean ====
section
/-! SUPPORT. The model's own tests: ill-formed terms the checks refuse, words written out from the spec's encodings,
one step of each instruction on a small state (expected results from spec/95_test_vectors.md), and for every statement
with hypotheses a witness that meets them. -/

namespace Sys2Proof.Machine.Tests

open Sys2Proof.Statements

/-! ### Small states -/

/-- The next state of an outcome, if it is one. -/
def nextOf : Host.Outcome State Fault Refusal → Option State
  | .next t => some t
  | .fault _ => none
  | .refused _ => none

/-- The refusal of an outcome, if it is one. -/
def refusalOf : Host.Outcome State Fault Refusal → Option Refusal
  | .next _ => none
  | .fault _ => none
  | .refused r => some r

/-- What a test looks at in the next state. -/
def after {α : Type} (o : Host.Outcome State Fault Refusal) (look : State → α) : Option α := (nextOf o).map look

/-- RawConfig of the spec's example C16x2 (R101), with the fields a test varies. -/
def rawWith (rs : Option PinId) (en : Option PinId) (d : Option (List PinId)) (columns rows : Option Int) :
    RawConfig :=
  { rs := rs, en := en, dataPins := d, columns := columns, rows := rows }

/-- C16x2. -/
def raw16x2 : RawConfig := rawWith (some ⟨25⟩) (some ⟨24⟩) (some [⟨23⟩, ⟨17⟩, ⟨27⟩, ⟨22⟩]) (some 16) (some 2)

/-- A configuration like C16x2 with another number of rows. -/
def rowsOf (n : RowCount) : EngineConfig := { exampleConfig with rows := n }

/-- What the engine has done before the small states begin. -/
def history : List Event := setupEvents exampleConfig

/-- A READY engine, display known, settled and blank. -/
def readyOf (c : EngineConfig) : State :=
  { State.reset with
    phase := .ready
    cfg := some c
    trace := history
    out := Latches.afterAll history []
    display := { half := none, shadow := .known [] 0, clearDuty := 0, powerDuty := 0 } }

/-- The same with C16x2. -/
def ready : State := readyOf exampleConfig

/-- READY with another display. -/
def readyShowing (x : Display) : State := { ready with display := x }

/-- The six pins in the order of R94. -/
def pinsOf (c : EngineConfig) : List PinId := [c.rs, c.en, c.d0, c.d1, c.d2, c.d3]

/-- A platform that rejects one pin. -/
def rejecting (p : PinId) : Env := { defaultEnv with platform := .allBut [p] }

/-- READY, two events of a command left. -/
def busy : State :=
  { ready with pending := calls [.wr ⟨24⟩ .low, .sleep 1], inFlight := some .command }

/-- A CREATE with its last event left. -/
def creating : State :=
  { State.reset with
    trace := history
    out := Latches.afterAll history []
    pending := calls [.sleep 1]
    inFlight := some (.create exampleConfig) }

/-! ### Ill-formed terms -/

theorem test_wf_create : WellFormed (.create raw16x2) := by decide
theorem test_illformed_create_rs_absent :
    ¬ WellFormed (.create (rawWith none (some ⟨24⟩) (some [⟨1⟩]) (some 1) (some 1))) := by decide
theorem test_illformed_create_en_wide :
    ¬ WellFormed (.create (rawWith (some ⟨25⟩) (some ⟨256⟩) (some [⟨1⟩]) (some 1) (some 1))) := by decide
theorem test_illformed_create_pins_absent :
    ¬ WellFormed (.create (rawWith (some ⟨25⟩) (some ⟨24⟩) none (some 1) (some 1))) := by decide
theorem test_illformed_create_pin_wide :
    ¬ WellFormed (.create (rawWith (some ⟨25⟩) (some ⟨24⟩) (some [⟨1⟩, ⟨256⟩]) (some 1) (some 1))) := by decide
theorem test_illformed_create_pins_many (pins : List PinId) (h : pins.length = 256) :
    ¬ WellFormed (.create (rawWith (some ⟨25⟩) (some ⟨24⟩) (some pins) (some 1) (some 1))) := by
  simp [WellFormed, Instr.wellFormed, RawConfig.wellFormed, rawWith, h]
theorem test_illformed_create_columns_negative :
    ¬ WellFormed (.create (rawWith (some ⟨25⟩) (some ⟨24⟩) (some [⟨1⟩]) (some (-1)) (some 1))) := by decide
theorem test_illformed_create_rows_wide :
    ¬ WellFormed (.create (rawWith (some ⟨25⟩) (some ⟨24⟩) (some [⟨1⟩]) (some 1) (some 256))) := by decide
theorem test_illformed_create_rows_absent :
    ¬ WellFormed (.create (rawWith (some ⟨25⟩) (some ⟨24⟩) (some [⟨1⟩]) (some 1) none)) := by decide
theorem test_illformed_print_code : ¬ WellFormed (.print [4294967296]) := by decide
theorem test_illformed_print_long (text : List Nat) (h : text.length = 65536) : ¬ WellFormed (.print text) := by
  simp [WellFormed, Instr.wellFormed, h]
theorem test_illformed_setcursor_col : ¬ WellFormed (.setcursor 65536 0) := by decide
theorem test_illformed_setcursor_row_low : ¬ WellFormed (.setcursor 0 (-32769)) := by decide
theorem test_illformed_setcursor_row_high : ¬ WellFormed (.setcursor 0 32768) := by decide
theorem test_illformed_reserved : ¬ WellFormed (.reservedRequest 0x03 []) := by decide
theorem test_illformed_setddramaddr : ¬ WellFormed (.setddramaddr 128) := by decide
theorem test_illformed_data : ¬ WellFormed (.data 256) := by decide
theorem test_illformed_write8_settle : ¬ WellFormed (.write8 0 false 49 none) := by decide
theorem test_illformed_write8_delay : ¬ WellFormed (.write8 0 false 50 (some 99)) := by decide
theorem test_illformed_cfg_high : ¬ WellFormed (.cfg ⟨25⟩ .high) := by decide
theorem test_illformed_sleep : ¬ WellFormed (.sleep 2) := by decide

/-! ### Words written out from the encodings: V-DEC-1 to V-DEC-21, R82 -/

theorem test_dec_create : decodePacket [0x00, 0x19, 0x18, 0x04, 0x17, 0x11, 0x1B, 0x16, 0x10, 0x02] =
    .ok (.create raw16x2) := by decide
theorem test_dec_create_three_pins : decodePacket [0x00, 0x19, 0x18, 0x03, 0x17, 0x11, 0x1B, 0x10, 0x02] =
    .ok (.create (rawWith (some ⟨25⟩) (some ⟨24⟩) (some [⟨23⟩, ⟨17⟩, ⟨27⟩]) (some 16) (some 2))) := by decide
theorem test_dec_create_no_pins : decodePacket [0x00, 0x19, 0x18, 0x00, 0x10, 0x05] =
    .ok (.create (rawWith (some ⟨25⟩) (some ⟨24⟩) (some []) (some 16) (some 5))) := by decide
theorem test_dec_clear : decodePacket [0x01] = .ok .clear := by decide
theorem test_dec_print_hi :
    decodePacket [0x02, 0x02, 0x00, 0x48, 0x00, 0x00, 0x00, 0x69, 0x00, 0x00, 0x00] =
      .ok (.print [0x48, 0x69]) := by decide
theorem test_dec_print_empty : decodePacket [0x02, 0x00, 0x00] = .ok (.print []) := by decide
theorem test_dec_print_wide : decodePacket [0x02, 0x01, 0x00, 0x41, 0x01, 0x00, 0x00] = .ok (.print [0x141]) := by
  decide
theorem test_dec_print_byte_order :
    decodePacket [0x02, 0x01, 0x00, 0x01, 0x02, 0x03, 0x04] = .ok (.print [0x04030201]) := by decide
theorem test_dec_setcursor : decodePacket [0x03, 0x03, 0x00, 0x01, 0x00] = .ok (.setcursor 3 1) := by decide
theorem test_dec_setcursor_200 : decodePacket [0x03, 0xC8, 0x00, 0x01, 0x00] = .ok (.setcursor 200 1) := by decide
theorem test_dec_setcursor_negative : decodePacket [0x03, 0x00, 0x00, 0xFF, 0xFF] = .ok (.setcursor 0 (-1)) := by
  decide
theorem test_dec_setcursor_lowest : decodePacket [0x03, 0x07, 0x01, 0x00, 0x80] = .ok (.setcursor 263 (-32768)) := by
  decide
theorem test_dec_reserved_04 : decodePacket [0x04] = .ok (.reservedRequest 0x04 []) := by decide
theorem test_dec_reserved_ff : decodePacket [0xFF, 0x00, 0x00] = .ok (.reservedRequest 0xFF [0x00, 0x00]) := by
  decide
theorem test_dec_clear_long : decodePacket [0x01, 0x00] = .malformed := by decide
theorem test_dec_setcursor_short : decodePacket [0x03, 0x03, 0x00, 0x01] = .malformed := by decide
theorem test_dec_print_short : decodePacket [0x02, 0x02, 0x00, 0x48, 0x00, 0x00, 0x00] = .malformed := by decide
theorem test_dec_create_short :
    decodePacket [0x00, 0x19, 0x18, 0x04, 0x17, 0x11, 0x1B, 0x16, 0x10] = .malformed := by decide
theorem test_dec_empty : decodePacket [] = .malformed := by decide

theorem test_frame_rawInit1 : decodeFrame 0b000110011 = .ok .rawInit1 := by decide
theorem test_frame_rawInit2 : decodeFrame 0b000110010 = .ok .rawInit2 := by decide
theorem test_frame_displaycontrol : decodeFrame 0b000001100 = .ok .displaycontrol := by decide
theorem test_frame_functionset : decodeFrame 0b000101000 = .ok .functionset := by decide
theorem test_frame_entrymodeset : decodeFrame 0b000000110 = .ok .entrymodeset := by decide
theorem test_frame_cleardisplay : decodeFrame 0b000000001 = .ok .cleardisplay := by decide
theorem test_frame_setddramaddr : decodeFrame 0b011000011 = .ok (.setddramaddr 0x43) := by decide
theorem test_frame_data : decodeFrame 0b111011001 = .ok (.data 0xD9) := by decide
theorem test_frame_returnhome : decodeFrame 0b000000011 = .ok (.returnhome true) := by decide
theorem test_frame_cursorshift : decodeFrame 0b000011001 = .ok (.cursorshift true false 1) := by decide
theorem test_frame_setcgramaddr : decodeFrame 0b001101010 = .ok (.setcgramaddr 0x2A) := by decide
theorem test_frame_not_emitted : decodeFrame 0b000000000 = .unknownFrame := by decide
theorem test_frame_other_function_set : decodeFrame 0b000111000 = .unknownFrame := by decide

theorem test_tableWord_request : decodeTableWord 8 0x03 = some (.setcursor 0 0) := by decide
theorem test_tableWord_frame : decodeTableWord 16 0x0C = some .displaycontrol := by decide
theorem test_fetch_request : after (step (State.reset.withFetchWord 8 0x04)) (·.results) =
    some [.unknownRequest 0x04] := by decide
theorem test_fetch_frame : after (step (State.reset.withFetchWord 16 0x132)) (·.pending[1]?) =
    some (some (.wr ⟨25⟩ .high)) := by decide

/-! ### One step of each instruction -/

set_option maxRecDepth 4000 in
/-- V-CREATE-1: 140 events, event 18 the first init delay. -/
theorem test_create_events : after (exec (.create raw16x2) State.reset)
    (fun t => (t.pending.length, t.pending[18]?, t.pending[41]?)) =
      some (140, some (.sleep 4100), some (.sleep 100)) := by decide
/-- V-CREATE-12: operand checks precede pin setup. -/
theorem test_create_checks_first :
    after (exec (.create { raw16x2 with rows := some 0 }) (State.init (rejecting ⟨25⟩) []))
      (fun t => (t.results, t.pending)) = some ([.configurationError], []) := by decide
/-- V-CLEAR-1. -/
theorem test_clear : after (exec .clear ready) (fun t => (t.pending.length, t.pending[2]?, t.pending[12]?)) =
    some (22, some (.wr ⟨23⟩ .low), some (.wr ⟨23⟩ .high)) := by decide
/-- V-CLEAR-3. -/
theorem test_clear_uninit : after (exec .clear State.reset) (·.results) = some [.notInitialized] := by decide
/-- V-PRINT-6: the frames of more newlines than rows. -/
theorem test_print_newlines :
    framesFrom (rowsOf .four) [] (printEvents defaultEnv (rowsOf .four) 0 [0x0A, 0x0A, 0x0A, 0x0A, 0x0A, 0x58]) =
      [⟨false, 0xC0⟩, ⟨false, 0x94⟩, ⟨false, 0xD4⟩, ⟨false, 0xD4⟩, ⟨false, 0xD4⟩, ⟨true, 0x58⟩] := by decide
/-- V-PRINT-11: `ord = 0x10A` is data 0x0A, no cursor move. -/
theorem test_print_not_newline : after (exec (.print [0x10A]) ready)
    (fun t => (t.pending.length, t.pending[1]?, t.pending[13]?, t.pending[12]?)) =
      some (22, some (.wr ⟨25⟩ .high), some (.wr ⟨17⟩ .high), some (.wr ⟨23⟩ .low)) := by decide
/-- V-SC row 14: `SETCURSOR(200, 1)` on two rows sends 0x88. -/
theorem test_setcursor_cut : framesFrom exampleConfig [] (setcursorEvents defaultEnv exampleConfig 200 1) =
    [⟨false, 0x88⟩] := by decide
/-- V-SC rows 19 and 22. -/
theorem test_setcursor_negative :
    after (exec (.setcursor 0 (-1)) ready) (fun t => (t.results, t.trace)) =
      some ([.rowIndexUndefined (-1)], history) ∧
    after (exec (.setcursor 0 (-1)) State.reset) (·.results) = some [.notInitialized] := by decide
/-- V-DEC-16. -/
theorem test_reservedRequest : after (exec (.reservedRequest 0xFF [0, 0]) ready) (·.results) =
    some [.unknownRequest 0xFF] := by decide
theorem test_rawInit1 : after (exec .rawInit1 ready) (fun t => (t.pending.length, t.pending[12]?)) =
    some (23, some (.sleep 4100)) := by decide
theorem test_rawInit2 : after (exec .rawInit2 ready) (fun t => (t.pending.length, t.pending[12]?)) =
    some (23, some (.sleep 100)) := by decide
theorem test_displaycontrol : framesFrom exampleConfig [] (displaycontrolEvents defaultEnv exampleConfig) =
    [⟨false, 0x0C⟩] := by decide
theorem test_functionset : framesFrom exampleConfig [] (functionsetEvents defaultEnv exampleConfig) =
    [⟨false, 0x28⟩] := by decide
theorem test_entrymodeset : framesFrom exampleConfig [] (entrymodesetEvents defaultEnv exampleConfig) =
    [⟨false, 0x06⟩] := by decide
theorem test_cleardisplay : framesFrom exampleConfig [] (cleardisplayEvents defaultEnv exampleConfig) =
    [⟨false, 0x01⟩] := by decide
/-- V-SC row 11: 0xC3 is d0 and d1 HIGH in the low nibble. -/
theorem test_setddramaddr : after (exec (.setddramaddr 0x43) ready)
    (fun t => (t.pending[1]?, t.pending.drop 12 |>.take 4)) =
      some (some (.wr ⟨25⟩ .low), [.wr ⟨23⟩ .high, .wr ⟨17⟩ .high, .wr ⟨27⟩ .low, .wr ⟨22⟩ .low]) := by decide
/-- V-PRINT-10: 0x141 is sent as 0x41. -/
theorem test_data : framesFrom exampleConfig [] (dataEvents exampleConfig 0x141) = [⟨true, 0x41⟩] := by decide
theorem test_returnhome : refusalOf (exec (.returnhome false) ready) = some (.neverEmitted "RETURNHOME") := by decide
theorem test_cursorshift : refusalOf (exec (.cursorshift true true 0) ready) =
    some (.neverEmitted "CURSORSHIFT") := by decide
theorem test_setcgramaddr : refusalOf (exec (.setcgramaddr 0) ready) = some (.neverEmitted "SETCGRAMADDR") := by
  decide
/-- V-W8-10: 0xD9 tells a swapped nibble and a reversed bit order apart. -/
theorem test_write8 : after (exec (.write8 0xD9 false 50 none) ready)
    (fun t => (t.pending.drop 2 |>.take 4, t.pending.drop 12 |>.take 4)) =
      some ([.wr ⟨23⟩ .high, .wr ⟨17⟩ .low, .wr ⟨27⟩ .high, .wr ⟨22⟩ .high],
        [.wr ⟨23⟩ .high, .wr ⟨17⟩ .low, .wr ⟨27⟩ .low, .wr ⟨22⟩ .high]) := by decide
/-- V-W8-12. -/
theorem test_write8_delay : latchFrom exampleConfig [] (write8Events exampleConfig 0x32 false 50 (some 100)) =
    [⟨false, 0x3⟩, ⟨false, 0x2⟩] := by decide
/-- V-NIB, row 0xA. -/
theorem test_nibble : after (exec (.nibble 0xA) ready) (·.pending) =
    some [.wr ⟨23⟩ .low, .wr ⟨17⟩ .high, .wr ⟨27⟩ .low, .wr ⟨22⟩ .high] := by decide
/-- V-PULSE-1, called before what is already pending. -/
theorem test_pulse : after (exec .pulse busy) (·.pending) =
    some [.wr ⟨24⟩ .low, .sleep 1, .wr ⟨24⟩ .high, .sleep 1, .wr ⟨24⟩ .low, .sleep 1, .wr ⟨24⟩ .low, .sleep 1] := by decide
/-- V-GPIO-1. -/
theorem test_cfg : after (exec (.cfg ⟨25⟩ .low) State.reset) (fun t => (t.out.get ⟨25⟩, t.trace)) =
    some (some .low, [.cfg ⟨25⟩ .low]) := by decide
/-- V-GPIO-2. -/
theorem test_cfg_rejected : after (exec (.cfg ⟨17⟩ .low) (State.init (rejecting ⟨17⟩) []))
    (fun t => (t.out.get ⟨17⟩, t.trace, t.results)) = some (none, [], [.hardwareAccessError ⟨17⟩]) := by decide
/-- V-GPIO-3. -/
theorem test_wr : after (exec (.wr ⟨23⟩ .high) ready) (fun t => (t.out.get ⟨23⟩, t.out.get ⟨17⟩)) =
    some (some .high, some .low) := by decide
/-- V-GPIO-4: no change of level, still an event. -/
theorem test_wr_same : after (exec (.wr ⟨24⟩ .low) ready) (fun t => (t.out.get ⟨24⟩, t.trace.length)) =
    some (some .low, 7) := by decide
/-- V-GPIO-5. -/
theorem test_sleep : after (exec (.sleep 50) ready) (fun t => (t.out, t.trace.length)) =
    some (ready.out, 7) := by decide

/-- R10: the same machine over another pin type; V6 reads nothing of a pin but equality. -/
theorem test_other_pin_type :
    (configOf (P := Char) ⟨some 'r', some 'e', some ['a', 'b', 'c', 'd'], some 16, some 2⟩).isSome = true ∧
    configOf (P := Char) ⟨some 'r', some 'e', some ['a', 'b', 'c', 'r'], some 16, some 2⟩ = none := by decide

/-! ### The receiver's view -/

/-- V-OBS-5: no falling edge. -/
theorem test_observer_no_edge : latchFrom exampleConfig [(⟨24⟩, .low)] [.wr ⟨24⟩ .low] = [] := by decide
/-- V-SH-4: the frames of V-PRINT-2. -/
theorem test_shadow_overwrite :
    ([⟨true, 0x41⟩, ⟨false, 0xC0⟩, ⟨true, 0x42⟩, ⟨false, 0xC0⟩, ⟨true, 0x43⟩] : List Frame).foldl
      (fun x f => Shadow.frame defaultEnv f x) (Shadow.known [] 0) = Shadow.known [(0x00, 0x41), (0x40, 0x43)] 0x41 := by decide
/-- V-SH-7: after address 0x27 comes 0x40. -/
theorem test_shadow_jump : Shadow.frame defaultEnv ⟨true, 0x6E⟩ (.known [] 0x27) = .known [(0x27, 0x6E)] 0x40 := by
  decide
/-- R227: a CREATE before the host has let T_POWER_ON pass loses the shadow; another request does not. -/
theorem test_power_up : ((Display.initial defaultEnv).requested true).shadow = .lost ∧
    ((Display.initial defaultEnv).requested false).shadow = .unknown := by decide
/-- V-CLEAR-2 and R224: the whole T_CLEAR_EXEC runs from the return of the clear to the next request, refused or not. -/
theorem test_clear_duty :
    after (step { readyShowing { half := none, shadow := .known [] 0, clearDuty := 1, powerDuty := 0 } with
      host := [.request (.setcursor 0 (-1))] }) (·.display.shadow) = some .lost ∧
    after (step { readyShowing { half := none, shadow := .known [] 0, clearDuty := 0, powerDuty := 0 } with
      host := [.request (.setcursor 0 (-1))] }) (·.display.shadow) = some (.known [] 0) := by decide
/-- R172: the clear of a CREATE is known from the CREATE's end, not from its latch. -/
theorem test_known_after_create : Shadow.frame defaultEnv ⟨false, 0x01⟩ .unknown = .cleared ∧
    after (step { creating with display := { half := none, shadow := .cleared, clearDuty := 2000, powerDuty := 0 } })
      (·.display.shadow) = some (.known [] 0) := by decide

/-! ### Witnesses: for every statement with hypotheses, a state and operands that meet all of them together, named
after the statement; for a statement of several clauses, one for each, at the ends of its ranges -/

theorem example_ok : exampleConfig.Ok := ⟨by decide, by decide⟩

/-- A platform oracle given as the list of accepted pins. -/
def onlyEnv (pins : List PinId) : Env := { defaultEnv with platform := .only pins }

/-- READY with the host about to make a move. -/
def readyWith (m : HostMove) : State := { ready with host := [m] }

/-- UNINIT with the host about to make a move. -/
def resetWith (m : HostMove) : State := { State.reset with host := [m] }

theorem witness_RequestPacketsRoundTrip :
    (WellFormed (.create (rawWith (some ⟨255⟩) (some ⟨0⟩) (some []) (some 0) (some 255))) ∧
      encode (.create (rawWith (some ⟨255⟩) (some ⟨0⟩) (some []) (some 0) (some 255))) =
        some (.packet [0x00, 0xFF, 0x00, 0x00, 0x00, 0xFF])) ∧
    (WellFormed (.print [4294967295]) ∧
      encode (.print [4294967295]) = some (.packet [0x02, 0x01, 0x00, 0xFF, 0xFF, 0xFF, 0xFF])) ∧
    (WellFormed (.setcursor 65535 (-32768)) ∧
      encode (.setcursor 65535 (-32768)) = some (.packet [0x03, 0xFF, 0xFF, 0x00, 0x80])) ∧
    (WellFormed (.reservedRequest 0x04 [0x00]) ∧
      encode (.reservedRequest 0x04 [0x00]) = some (.packet [0x04, 0x00])) := by decide

theorem witness_AcceptedPacketsReencode :
    decodePacket [0x03, 0xFF, 0xFF, 0xFF, 0x7F] = .ok (.setcursor 65535 32767) := by decide

theorem witness_BusFramesRoundTrip :
    (WellFormed (.setddramaddr 127) ∧ encode (.setddramaddr 127) = some (.frame 0x0FF)) ∧
    (WellFormed (.data 255) ∧ encode (.data 255) = some (.frame 0x1FF)) ∧
    (WellFormed (.cursorshift true true 3) ∧ encode (.cursorshift true true 3) = some (.frame 0x01F)) ∧
    (WellFormed (.setcgramaddr 63) ∧ encode (.setcgramaddr 63) = some (.frame 0x07F)) ∧
    (WellFormed (.returnhome true) ∧ encode (.returnhome true) = some (.frame 0x003)) := by decide

theorem witness_AcceptedFramesReencode :
    decodeFrame 0x080 = .ok (.setddramaddr 0) ∧ decodeFrame 0x100 = .ok (.data 0) := by decide

/-- One packet of each layout; the clauses: a byte added, and a cut one byte short. -/
theorem witness_PacketLengthIsExact :
    ((0x00 : Byte).toNat < 4 ∧ ∃ i, decodePacket (0x00 :: [1, 2, 0, 3, 4]) = .ok i) ∧
    ((0x01 : Byte).toNat < 4 ∧ ∃ i, decodePacket (0x01 :: []) = .ok i) ∧
    ((0x02 : Byte).toNat < 4 ∧ ∃ i, decodePacket (0x02 :: [0, 0]) = .ok i) ∧
    ((0x03 : Byte).toNat < 4 ∧ ∃ i, decodePacket (0x03 :: [0, 0, 0, 0]) = .ok i) ∧
    ([0x00] : List Byte) ≠ [] ∧ 4 < ((0x03 : Byte) :: [0, 0, 0, 0]).length :=
  ⟨⟨by decide, _, rfl⟩, ⟨by decide, _, rfl⟩, ⟨by decide, _, rfl⟩, ⟨by decide, _, rfl⟩, by decide, by decide⟩

/-- In both phases: a packet too long, and an empty one. -/
theorem witness_MalformedPacketRefused :
    ((resetWith (.packet [0x01, 0x00])).Idle ∧
      (resetWith (.packet [0x01, 0x00])).host = .packet [0x01, 0x00] :: [] ∧
      decodePacket [0x01, 0x00] = .malformed) ∧
    ((readyWith (.packet [])).Idle ∧ (readyWith (.packet [])).host = .packet [] :: [] ∧
      decodePacket [] = .malformed) := by decide

/-- In both phases: the first and the last reserved opcode. -/
theorem witness_ReservedOpcodeRefused :
    (State.reset.Idle ∧ 4 ≤ (0x04 : Byte).toNat) ∧ (ready.Idle ∧ 4 ≤ (0xFF : Byte).toNat) := by decide

/-- Busy; a packet and an abstract request, each a CREATE and another. -/
theorem witness_StepRunsDecodedInstruction :
    busy.pending = .wr ⟨24⟩ .low :: [.sleep 1] ∧
    ((readyWith (.packet [0x01])).pending = [] ∧ (readyWith (.packet [0x01])).host = .packet [0x01] :: [] ∧
      decodePacket [0x01] = .ok .clear) ∧
    (let bytes : List Byte := [0x00, 0x19, 0x18, 0x04, 0x17, 0x11, 0x1B, 0x16, 0x10, 0x02];
      (resetWith (.packet bytes)).pending = [] ∧ (resetWith (.packet bytes)).host = .packet bytes :: [] ∧
      decodePacket bytes = .ok (.create raw16x2)) ∧
    ((resetWith (.request (.create raw16x2))).pending = [] ∧
      (resetWith (.request (.create raw16x2))).host = .request (.create raw16x2) :: []) ∧
    ((readyWith (.request .clear)).pending = [] ∧ (readyWith (.request .clear)).host = .request .clear :: []) := by
  decide

/-- A `Wr`, and a `Cfg` the platform accepts. -/
theorem witness_BusyStepPerformsHead :
    (busy.pending = Event.toInstr (.wr ⟨24⟩ .low) :: [.sleep 1] ∧ ([.sleep 1] : List Instr) ≠ [] ∧
      ∀ p l, Event.wr ⟨24⟩ .low = .cfg p l → cfgOk busy.env p = true) ∧
    (let s : State := { State.reset with pending := [.cfg ⟨25⟩ .low, .sleep 50] };
      s.pending = Event.toInstr (.cfg ⟨25⟩ .low) :: [.sleep 50] ∧ ([.sleep 50] : List Instr) ≠ [] ∧
      ∀ p l, Event.cfg ⟨25⟩ .low = .cfg p l → cfgOk s.env p = true) := by
  refine ⟨⟨rfl, by decide, ?_⟩, rfl, by decide, ?_⟩
  · intro p l h; cases h
  · intro p l h; cases h; decide

/-- No move; a wait. -/
theorem witness_IdleEngineStays :
    (ready.pending = [] ∧ ready.host = []) ∧
    ((readyWith (.wait 2000)).pending = [] ∧ (readyWith (.wait 2000)).host = .wait 2000 :: []) := by decide

/-- The reset by the host. -/
theorem witness_ResetState :
    (readyWith .reset).pending = [] ∧ (readyWith .reset).host = .reset :: [] := by decide

theorem ready_wiring_ok (c : EngineConfig) (h : ready.wiring = some c) : c.Ok := by
  have hw : ready.wiring = some exampleConfig := rfl
  rw [hw] at h
  cases h
  exact example_ok

/-- A READY idle state that meets the invariant. -/
theorem witness_inv_ready : ready.Inv where
  ready_iff := by decide
  config_ok := ready_wiring_ok
  creating := by intro c h; cases h
  serving := by decide
  idle := by decide
  pending_events := ⟨[], rfl, by simp⟩
  configuring := by intro p l h; cases h
  print_row := rfl
  latches_wf := by decide
  latches_trace := rfl
  display_valid := by intro d a h; rfl
  ddram_wf := by intro d a h; cases h; rfl

/-- A busy state that meets it, and its step. -/
theorem witness_inv_busy : busy.Inv where
  ready_iff := by decide
  config_ok := ready_wiring_ok
  creating := by intro c h; cases h
  serving := by decide
  idle := by decide
  pending_events := ⟨[.wr ⟨24⟩ .low, .sleep 1], rfl, by
    intro e he
    refine ⟨exampleConfig, rfl, ?_⟩
    simp only [List.mem_cons, List.not_mem_nil, or_false] at he
    rcases he with rfl | rfl <;> simp [Event.Of, EngineConfig.pins, exampleConfig]⟩
  configuring := by intro p l h; simp [busy, calls, Event.toInstr] at h
  print_row := rfl
  latches_wf := by decide
  latches_trace := rfl
  display_valid := by intro d a h; rfl
  ddram_wf := by intro d a h; cases h; rfl

/-- A CREATE about to complete that meets it. -/
theorem witness_inv_creating : creating.Inv where
  ready_iff := by decide
  config_ok := by
    intro c h
    have hw : creating.wiring = some exampleConfig := rfl
    rw [hw] at h
    cases h
    exact example_ok
  creating := by intro c h; rfl
  serving := by decide
  idle := by decide
  pending_events := ⟨[.sleep 1], rfl, by
    intro e he
    refine ⟨exampleConfig, rfl, ?_⟩
    simp only [List.mem_cons, List.not_mem_nil, or_false] at he
    subst he
    simp [Event.Of]⟩
  configuring := by intro p l h; exact ⟨exampleConfig, rfl⟩
  print_row := rfl
  latches_wf := by decide
  latches_trace := rfl
  display_valid := by intro d a h; cases h
  ddram_wf := by intro d a h; cases h

/-- A busy, an idle and a completing step from states that meet the invariant. -/
theorem witness_StepKeepsInvariant :
    (busy.Inv ∧ ∃ t, step busy = .next t) ∧ (ready.Inv ∧ ∃ t, step ready = .next t) ∧
    (creating.Inv ∧ ∃ t, step creating = .next t) :=
  ⟨⟨witness_inv_busy, _, rfl⟩, ⟨witness_inv_ready, _, rfl⟩, ⟨witness_inv_creating, _, rfl⟩⟩

theorem witness_InvariantStatesNeverStop : busy.Inv ∧ creating.Inv := ⟨witness_inv_busy, witness_inv_creating⟩

theorem busy_quiet : busy.EnableQuiet := by
  intro c events hw hp
  have h1 : busy.wiring = some exampleConfig := rfl
  rw [h1] at hw
  cases hw
  match events, hp with
  | [.wr ⟨24⟩ .low, .sleep 1], _ => decide

theorem ready_quiet : ready.EnableQuiet := by
  intro c events hw hp
  have h1 : ready.wiring = some exampleConfig := rfl
  rw [h1] at hw
  cases hw
  match events, hp with
  | [], _ => decide

/-- Both clauses. -/
theorem witness_EnableLowWhenIdle :
    (busy.Inv ∧ busy.EnableQuiet ∧ ∃ t, step busy = .next t) ∧
    (ready.Inv ∧ ready.EnableQuiet ∧ ready.pending = [] ∧ ready.ReadyWith exampleConfig) :=
  ⟨⟨witness_inv_busy, busy_quiet, _, rfl⟩, witness_inv_ready, ready_quiet, rfl, rfl, rfl⟩

theorem witness_StepAppendsAtMostOneEvent :
    ¬ (busy.pending = [] ∧ busy.host.head? = some .reset) ∧ ∃ t, step busy = .next t := ⟨by decide, _, rfl⟩

/-- A step of a READY engine, and the step that makes an engine READY. -/
theorem witness_ConfigurationWrittenOnlyByCreate :
    (busy.Inv ∧ busy.phase = .ready ∧ ∃ t, step busy = .next t) ∧
    (creating.Inv ∧ creating.phase = .uninit ∧ ∃ t, step creating = .next t ∧ t.phase = .ready) :=
  ⟨⟨witness_inv_busy, rfl, _, rfl⟩, witness_inv_creating, rfl, _, rfl, rfl⟩

theorem witness_CreateCompletes :
    State.reset.Idle ∧ State.reset.phase = .uninit ∧ configOf raw16x2 = some exampleConfig ∧
    PinsOk State.reset.env exampleConfig := by
  refine ⟨by decide, rfl, by decide, ?_⟩
  unfold PinsOk
  decide

theorem witness_CreateEndLevels : exampleConfig.Ok ∧ ConstantsDefault defaultEnv := ⟨example_ok, rfl⟩

/-- The first pin, one in the middle, the last. -/
theorem witness_CreateStopsAtRejectedPin :
    (let s := State.init (rejecting ⟨25⟩) [];
      s.Idle ∧ s.phase = .uninit ∧ configOf raw16x2 = some exampleConfig ∧
      pinsOf exampleConfig = [] ++ ⟨25⟩ :: [⟨24⟩, ⟨23⟩, ⟨17⟩, ⟨27⟩, ⟨22⟩] ∧ (∀ q ∈ ([] : List PinId), cfgOk s.env q = true) ∧
      cfgOk s.env ⟨25⟩ = false) ∧
    (let s := State.init (rejecting ⟨17⟩) [];
      s.Idle ∧ s.phase = .uninit ∧ configOf raw16x2 = some exampleConfig ∧
      pinsOf exampleConfig = [⟨25⟩, ⟨24⟩, ⟨23⟩] ++ ⟨17⟩ :: [⟨27⟩, ⟨22⟩] ∧ (∀ q ∈ [⟨25⟩, ⟨24⟩, ⟨23⟩], cfgOk s.env q = true) ∧
      cfgOk s.env ⟨17⟩ = false) ∧
    (let s := State.init (onlyEnv [⟨25⟩, ⟨24⟩, ⟨23⟩, ⟨17⟩, ⟨27⟩]) [];
      s.Idle ∧ s.phase = .uninit ∧ configOf raw16x2 = some exampleConfig ∧
      pinsOf exampleConfig = [⟨25⟩, ⟨24⟩, ⟨23⟩, ⟨17⟩, ⟨27⟩] ++ ⟨22⟩ :: [] ∧
      (∀ q ∈ [⟨25⟩, ⟨24⟩, ⟨23⟩, ⟨17⟩, ⟨27⟩], cfgOk s.env q = true) ∧ cfgOk s.env ⟨22⟩ = false) := by decide

/-- Both ends of the row range, and one beyond each. -/
theorem witness_ConfigurationChecks :
    configOf { raw16x2 with rows := some 1, columns := some 1 } =
      some { exampleConfig with rows := .one, columns := 1 } ∧
    configOf { raw16x2 with rows := some 4 } = some (rowsOf .four) ∧
    configOf { raw16x2 with rows := some 0 } = none ∧ configOf { raw16x2 with rows := some 5 } = none ∧
    configOf { raw16x2 with columns := some 0 } = none := by decide

/-- Each check failing (V-CREATE-2 to V-CREATE-8). -/
theorem witness_BadConfigurationRejected :
    State.reset.Idle ∧ State.reset.phase = .uninit ∧
    checkV1 { raw16x2 with rs := none } = false ∧
    checkV2 { raw16x2 with dataPins := some [⟨23⟩, ⟨17⟩, ⟨27⟩] } = false ∧
    checkV3 { raw16x2 with columns := some 0 } = false ∧
    checkV4 { raw16x2 with rows := some 0 } = false ∧
    checkV5 { raw16x2 with rows := some 5 } = false ∧
    checkV6 { raw16x2 with en := some ⟨25⟩ } = false := by decide

theorem witness_CommandsRefusedBeforeCreate : State.reset.Idle ∧ State.reset.phase = .uninit := by decide

theorem witness_ClearCompletes :
    ready.Idle ∧ ready.ReadyWith exampleConfig ∧ exampleConfig.Ok ∧ ready.env.k.clearDisplay = 0x01 :=
  ⟨by decide, by decide, example_ok, by decide⟩

/-- A row beyond the panel, and the first. -/
theorem witness_SetCursorCompletes :
    ready.Idle ∧ ready.ReadyWith exampleConfig ∧ exampleConfig.Ok ∧
    (1 : Fin 4).val = min 7 (exampleConfig.rows.toNat - 1) ∧
    (0 : Fin 4).val = min 0 (exampleConfig.rows.toNat - 1) :=
  ⟨by decide, by decide, example_ok, by decide, by decide⟩

theorem witness_ReadyEngineRefuses : ready.Idle ∧ ready.ReadyWith exampleConfig ∧ (-1 : Int) < 0 := by decide

/-- The boundary rows of every row count, and the two clauses about SETCURSOR. -/
theorem witness_RowClampIsOneSided :
    (RowCount.one.toNat ≤ 1 ∧ 0 < RowCount.one.toNat) ∧ (RowCount.two.toNat ≤ 2 ∧ 1 < RowCount.two.toNat) ∧
    (RowCount.three.toNat ≤ 3 ∧ 2 < RowCount.three.toNat) ∧ (RowCount.four.toNat ≤ 4 ∧ 3 < RowCount.four.toNat) ∧
    (ready.cfg = some exampleConfig ∧ exampleConfig.rows = .two ∧ RowCount.two.toNat ≤ 2) ∧
    (ready.Idle ∧ ready.ReadyWith exampleConfig ∧ (-1 : Int) < 0) := by decide

/-- The last row of a one-row and of a four-row panel. -/
theorem witness_RowOffsetTable :
    (0 < RowCount.one.toNat ∧ (0 : Fin 4).val = 0) ∧ (3 < RowCount.four.toNat ∧ (3 : Fin 4).val = 3) := by decide

/-- The last address that adds and the first that does not. -/
theorem witness_SetCursorByte :
    defaultConsts.setDdramAddr = 0x80 ∧ (0x7F : Nat) ≤ 0x7F ∧ ¬ (0x80 : Nat) ≤ 0x7F ∧
    setDdramByte defaultConsts 0x7F = 0xFF ∧ setDdramByte defaultConsts 0x80 = 0x80 := by decide

theorem witness_PrintCompletes :
    ready.Idle ∧ ready.ReadyWith exampleConfig ∧ ready.printRow = none ∧ ([0x41] : List Nat) ≠ [] := by decide

/-- A newline, and a code with the newline's low byte. -/
theorem witness_PrintEventsFollowTheText :
    (0x0A : Nat) = defaultEnv.newline ∧ (0x10A : Nat) ≠ defaultEnv.newline := by decide

theorem witness_PrintSize : exampleConfig.Ok := example_ok

theorem witness_PortClosedWhileBusy : busy.pending ≠ [] := by decide

/-- From reset and from a READY engine. -/
theorem witness_StepsUnfoldBigStep :
    (let s := resetWith (.request (.create raw16x2));
      s.Idle ∧ s.printRow = none ∧ (s.phase = .ready ↔ s.cfg.isSome = true) ∧
      s.host = .request (.create raw16x2) :: []) ∧
    (let s := readyWith (.request (.print [0x41]));
      s.Idle ∧ s.printRow = none ∧ (s.phase = .ready ↔ s.cfg.isSome = true) ∧
      s.host = .request (.print [0x41]) :: []) := by decide

/-- Wired when idle, when busy, inside a CREATE. -/
theorem witness_FixedFramesComplete :
    ready.wiring = some exampleConfig ∧ busy.wiring = some exampleConfig ∧ creating.wiring = some exampleConfig := by
  decide

theorem witness_OperandFramesComplete : ready.wiring = some exampleConfig := by decide
theorem witness_Write8Completes : creating.wiring = some exampleConfig := by decide
theorem witness_NibbleCompletes : busy.wiring = some exampleConfig := by decide
theorem witness_PulseCompletes : busy.wiring = some exampleConfig := by decide

/-- An accepted `Cfg`, and a `Sleep`. -/
theorem witness_CollaboratorCallsComplete :
    (∀ p l, Event.cfg ⟨25⟩ .low = .cfg p l → cfgOk State.reset.env p = true) ∧
    (∀ p l, Event.sleep 50 = .cfg p l → cfgOk State.reset.env p = true) := by
  refine ⟨?_, ?_⟩
  · intro p l h; cases h; decide
  · intro p l h; cases h

/-- Both forms of the oracle. -/
theorem witness_RejectedCfgRaises :
    cfgOk (State.init (rejecting ⟨17⟩) []).env ⟨17⟩ = false ∧ cfgOk (State.init (onlyEnv [⟨25⟩]) []).env ⟨24⟩ = false := by
  decide

theorem witness_LatchFrame :
    ((.cfg ⟨25⟩ .low : Event) = .cfg ⟨25⟩ .low ∨ (.cfg ⟨25⟩ .low : Event) = .wr ⟨25⟩ .low) ∧ (⟨24⟩ : PinId) ≠ ⟨25⟩ := by decide

theorem witness_TransferEndLevels : exampleConfig.Ok := example_ok
theorem witness_RegisterSelectWrittenOnce :
    exampleConfig.Ok ∧ (write8Events exampleConfig 0x41 true 50 none)[1]? = some (.wr exampleConfig.rs .high) ∧
    (exampleConfig.d0 ∈ [exampleConfig.d0, exampleConfig.d1, exampleConfig.d2, exampleConfig.d3] ∧
      (write8Events exampleConfig 0x41 true 50 none)[2]? = some (.wr exampleConfig.d0 .low)) :=
  ⟨example_ok, by decide, by decide, by decide⟩

/-- Enable LOW, and enable never driven. -/
theorem witness_TransferIsOneFrame :
    exampleConfig.Ok ∧ ready.out.get exampleConfig.en ≠ some .high ∧
    Latches.get exampleConfig.en [] ≠ some .high := ⟨example_ok, by decide, by decide⟩

theorem witness_FramesOfEachRequest :
    exampleConfig.Ok ∧ ConstantsDefault defaultEnv ∧ ready.out.get exampleConfig.en ≠ some .high :=
  ⟨example_ok, rfl, by decide⟩

/-- A CREATE, and a CLEAR with a frame of its own. -/
theorem witness_OnlyEngineFramesAreSent :
    exampleConfig.Ok ∧
    (ConstantsDefault State.reset.env ∧ State.reset.out.get exampleConfig.en ≠ some .high ∧
      (plan State.reset.env State.reset.phase State.reset.cfg (.create raw16x2)).creates = some exampleConfig) ∧
    (ConstantsDefault ready.env ∧ ready.out.get exampleConfig.en ≠ some .high ∧
      (plan ready.env ready.phase ready.cfg .clear).creates = none ∧ ready.cfg = some exampleConfig ∧
      (⟨false, 0x01⟩ : Frame) ∈
        framesFrom exampleConfig ready.out (plan ready.env ready.phase ready.cfg .clear).events) :=
  ⟨example_ok, ⟨rfl, by decide, by decide⟩, rfl, by decide, by decide, by decide, by decide⟩

theorem witness_EventsOfRequests :
    (plan defaultEnv .uninit none (.create raw16x2)).creates = some exampleConfig ∧
    ((plan defaultEnv .ready (some exampleConfig) .clear).creates = none ∧
      Event.sleep 50 ∈ (plan defaultEnv .ready (some exampleConfig) .clear).events) := by decide

theorem witness_CreateLatchTimes :
    exampleConfig.Ok ∧ Latches.get exampleConfig.en [] ≠ some .high := ⟨example_ok, by decide⟩

/-- The five writes reversed. -/
theorem witness_WriteOrderIsInvisible :
    exampleConfig.Ok ∧
    ([.wr ⟨22⟩ .low, .wr ⟨27⟩ .high, .wr ⟨17⟩ .low, .wr ⟨23⟩ .low, .wr ⟨25⟩ .high] : List Event).Perm
      (.wr exampleConfig.rs .high :: nibbleEvents exampleConfig 0x4) := ⟨example_ok, by decide⟩

/-- Set-address to the last address of the first range; data at it and at the last of the second. -/
theorem witness_FramesMoveTheShadow :
    Memory.wf defaultEnv.blank [(0x00, 0x48)] = true ∧
    ((0xA7 : Byte) ≠ defaultEnv.k.clearDisplay ∧ (0xA7 : Byte).getLsbD 7 = true ∧
      validAddr defaultEnv ((0xA7 : Byte).toNat % 128) = true) ∧
    validAddr defaultEnv (0x27 : BitVec 7).toNat = true ∧ validAddr defaultEnv (0x67 : BitVec 7).toNat = true := by
  decide

/-- Set-address to the first address after each range. -/
theorem witness_FramesLeaveOrLoseTheShadow :
    ConstantsDefault defaultEnv ∧
    ((0xA8 : Byte).getLsbD 7 = true ∧ validAddr defaultEnv ((0xA8 : Byte).toNat % 128) = false) ∧
    ((0xE8 : Byte).getLsbD 7 = true ∧ validAddr defaultEnv ((0xE8 : Byte).toNat % 128) = false) :=
  ⟨rfl, by decide, by decide⟩

/-- A display of which nothing is known, and nothing is owed to it. -/
theorem witness_TransferReachesTheShadow :
    let s := readyShowing { half := none, shadow := .unknown, clearDuty := 0, powerDuty := 0 };
    s.wiring = some exampleConfig ∧ exampleConfig.Ok ∧ s.out.get exampleConfig.en ≠ some .high ∧
    s.display.Settled := ⟨rfl, example_ok, by decide, rfl, rfl, rfl⟩

/-- A display that has been powered long enough, nothing known of it. -/
theorem witness_CreateMakesTheDisplayKnown :
    let s : State := { State.reset with display := { half := none, shadow := .unknown, clearDuty := 0, powerDuty := 0 } };
    s.Idle ∧ s.phase = .uninit ∧ configOf raw16x2 = some exampleConfig ∧ PinsOk s.env exampleConfig ∧
    ConstantsDefault s.env ∧ s.out.get exampleConfig.en ≠ some .high ∧ s.display.Settled ∧
    s.display.shadow ≠ .lost ∧ ∀ ddram ac, s.display.shadow ≠ .known ddram ac := by
  refine ⟨by decide, rfl, by decide, ?_, rfl, by decide, ⟨rfl, rfl, rfl⟩, by decide, ?_⟩
  · unfold PinsOk; decide
  · intro d a h; cases h

/-- Two characters up to the last address before a jump. -/
theorem witness_PrintStoresTheText :
    let s := readyShowing { half := none, shadow := .known [] 0x25, clearDuty := 0, powerDuty := 0 };
    s.wiring = some exampleConfig ∧ exampleConfig.Ok ∧ s.out.get exampleConfig.en ≠ some .high ∧
    s.display.Settled ∧ s.display.shadow = .known [] 0x25 ∧ Memory.wf s.env.blank [] = true ∧
    s.env.newline ∉ [0x48, 0x69] ∧ (0x25 : BitVec 7).toNat + [0x48, 0x69].length < 128 ∧
    (∀ j < [0x48, 0x69].length, validAddr s.env ((0x25 : BitVec 7).toNat + j) = true ∧
      s.env.acJumps.lookup ((0x25 : BitVec 7).toNat + j) = none) :=
  ⟨rfl, example_ok, by decide, ⟨rfl, rfl, rfl⟩, rfl, by decide, by decide, by decide, by decide⟩

/-- READY with enable and the given pins HIGH, a high nibble latched or not, a cell stored, the counter at `ac`. -/
def latching (high : List PinId) (half : Option Sample) (ac : BitVec 7) (duty : Nat) : State :=
  { ready with
    out := Latches.afterAll ((⟨24⟩ :: high).map fun p => .wr p .high) ready.out
    display := { half := half, shadow := .known [(0x10, 0x41)] ac, clearDuty := duty, powerDuty := 0 } }

/-- What the statement asks of a state, and whether the event is a falling edge. -/
def LatchingWith (s : State) (e : Event) (ac : BitVec 7) (edge : Bool) : Prop :=
  s.display.shadow = .known [(0x10, 0x41)] ac ∧ Memory.wf s.env.blank [(0x10, 0x41)] = true ∧
  s.wiring = some exampleConfig ∧ isFallingEdge exampleConfig s.out e = edge

/-- No falling edge; a duty outstanding; a high nibble; then a low nibble that completes the clear, data at the counter,
data at an address the display lacks, a set-address it has and one it lacks, a mode byte, another frame. -/
theorem witness_EventMemoryFrame :
    let e : Event := .wr ⟨24⟩ .low
    LatchingWith (latching [] none 0 0) (.sleep 50) 0 false ∧
    LatchingWith (latching [] none 0 0) (.wr ⟨25⟩ .low) 0 false ∧
    (LatchingWith (latching [] none 0 1) e 0 true ∧ (latching [] none 0 1).display.clearDuty ≠ 0) ∧
    (LatchingWith (latching [] none 0 0) e 0 true ∧ (latching [] none 0 0).display.half = none) ∧
    (LatchingWith (latching [⟨23⟩] (some ⟨false, 0⟩) 0 0) e 0 true ∧
      frameOf ⟨false, 0⟩ (sampleOf exampleConfig (latching [⟨23⟩] (some ⟨false, 0⟩) 0 0).out) =
        ⟨false, defaultEnv.k.clearDisplay⟩) ∧
    (LatchingWith (latching [⟨25⟩] (some ⟨true, 4⟩) 0x67 0) e 0x67 true ∧
      (frameOf ⟨true, 4⟩ (sampleOf exampleConfig (latching [⟨25⟩] (some ⟨true, 4⟩) 0x67 0).out)).rs = true ∧
      validAddr defaultEnv (0x67 : BitVec 7).toNat = true) ∧
    (LatchingWith (latching [⟨25⟩] (some ⟨true, 4⟩) 0x68 0) e 0x68 true ∧
      validAddr defaultEnv (0x68 : BitVec 7).toNat = false) ∧
    (LatchingWith (latching [⟨22⟩] (some ⟨false, 0xA⟩) 0 0) e 0 true ∧
      frameOf ⟨false, 0xA⟩ (sampleOf exampleConfig (latching [⟨22⟩] (some ⟨false, 0xA⟩) 0 0).out) = ⟨false, 0xA8⟩) ∧
    (LatchingWith (latching [⟨23⟩, ⟨17⟩, ⟨27⟩] (some ⟨false, 0xA⟩) 0 0) e 0 true ∧
      frameOf ⟨false, 0xA⟩ (sampleOf exampleConfig (latching [⟨23⟩, ⟨17⟩, ⟨27⟩] (some ⟨false, 0xA⟩) 0 0).out) =
        ⟨false, 0xA7⟩) ∧
    (LatchingWith (latching [⟨27⟩, ⟨22⟩] (some ⟨false, 0⟩) 0 0) e 0 true ∧
      frameOf ⟨false, 0⟩ (sampleOf exampleConfig (latching [⟨27⟩, ⟨22⟩] (some ⟨false, 0⟩) 0 0).out) = ⟨false, 0x0C⟩ ∧
      isModeByte defaultEnv.k 0x0C = true) ∧
    (LatchingWith (latching [⟨17⟩] (some ⟨false, 0⟩) 0 0) e 0 true ∧
      frameOf ⟨false, 0⟩ (sampleOf exampleConfig (latching [⟨17⟩] (some ⟨false, 0⟩) 0 0).out) = ⟨false, 0x02⟩ ∧
      isModeByte defaultEnv.k 0x02 = false) := by
  refine ⟨?_, ?_, ?_, ?_, ?_, ?_, ?_, ?_, ?_, ?_, ?_⟩ <;> (unfold LatchingWith; decide)

/-- The last visible cell; the first column and the first row beyond. -/
theorem witness_VisibleCells :
    ready.display.shadow = .known [] 0 ∧
    ((1 : Fin 4).val < exampleConfig.rows.toNat ∧ 15 < exampleConfig.columns) ∧
    ¬ ((1 : Fin 4).val < exampleConfig.rows.toNat ∧ 16 < exampleConfig.columns) ∧
    ¬ ((2 : Fin 4).val < exampleConfig.rows.toNat ∧ 0 < exampleConfig.columns) := by decide

end Sys2Proof.Machine.Tests
end

section
/-! The small-step machine unfolds the big-step function (R6). First what the big-step function answers, plan by plan;
then what each kind of pending list runs to; then request by request that the two agree. -/

namespace Sys2Proof.Machine

open Sys2Proof.Statements

/-! ### The issued request -/

theorem State.issue_eq_issued (s : State) (create : Bool) (moves : List HostMove) :
    s.issue create moves = Issued s create moves := by
  simp only [State.issue, Issued, Display.requested]
  split <;> rfl

/-- A coherent engine is UNINIT, or READY with a configuration (R23). -/
theorem State.uninit_or_readyWith {s : State} (h : s.phase = .ready ↔ s.cfg.isSome = true) :
    s.phase = .uninit ∨ ∃ c, s.ReadyWith c := by
  cases hp : s.phase with
  | uninit => exact .inl rfl
  | ready =>
    obtain ⟨c, hc⟩ := Option.isSome_iff_exists.1 (h.1 hp)
    exact .inr ⟨c, hp, hc⟩

/-! ### What the big-step function answers -/

theorem State.with_no_pending {s : State} (hp : s.pending = []) : ({ s with pending := [] } : State) = s := by
  rw [← hp]

theorem State.with_no_inFlight {s : State} (hf : s.inFlight = none) : ({ s with inFlight := none } : State) = s := by
  rw [← hf]

/-- With nothing pending, raising is delivering the result with no request in progress (R186). -/
theorem State.raise_eq_deliver {s : State} (hp : s.pending = []) (x : Result) :
    s.raise x = ({ s with inFlight := none } : State).deliver x := by
  simp only [State.raise, State.deliver, hp]

/-- A request that emits nothing leaves an idle engine as raising its result does. -/
theorem State.bigStep_nothing {s : State} {r : Request} {x : Result} (hp : s.pending = [])
    (h : plan s.env s.phase s.cfg r = Plan.nothing x) : s.bigStep r = s.raise x := by
  rw [State.raise_eq_deliver hp]
  simp only [State.bigStep, h, Plan.nothing, Option.map_none, State.performAll_nil]

/-- A served command performs its events and delivers success. -/
theorem State.bigStep_success {s : State} {r : Request} {events : List Event} (hf : s.inFlight = none)
    (h : plan s.env s.phase s.cfg r = Plan.success events) :
    s.bigStep r = (s.performAll events).deliver .success := by
  simp only [State.bigStep, h, Plan.success, Option.map_none, State.with_no_inFlight hf,
    State.with_no_inFlight ((State.performAll_inFlight events s).trans hf)]

/-- What a CREATE does in UNINIT once its checks have passed (R94, R95). -/
theorem plan_create {s : State} {config : RawConfig} {c : EngineConfig} (hu : s.phase = .uninit)
    (hc : configOf config = some c) : plan s.env s.phase s.cfg (.create config) = planCreate s.env c := by
  simp only [plan, hu, hc]

/-! ### The events of a CREATE -/

theorem initEvents_accepted (env env' : Env) (c : EngineConfig) : Accepted env (initEvents env' c) := by
  intro p l h
  simp only [initEvents, List.mem_append] at h
  rcases h with ((((h | h) | h) | h) | h) | h <;> exact write8Events_accepted env c _ _ _ _ p l h

theorem cfgOk_of_firstRejected_none {env : Env} {pins : List PinId} (h : firstRejected env pins = none) :
    ∀ p ∈ pins, cfgOk env p = true := by
  simpa [firstRejected] using h

theorem createEvents_accepted {env : Env} {c : EngineConfig} (h : PinsOk env c) :
    Accepted env (createEvents env c) := by
  intro p l hm
  rcases List.mem_append.1 hm with hm | hm
  · obtain ⟨q, hq, he⟩ := List.mem_map.1 hm
    cases he
    exact h _ hq
  · exact initEvents_accepted env env c p l hm

/-- At the first rejected pin the list of the six `Cfg` splits: the accepted ones, the rejected one, others (R94). -/
theorem setupEvents_split {env : Env} {c : EngineConfig} {p : PinId} (h : firstRejected env c.pins = some p) :
    cfgOk env p = false ∧ Accepted env (acceptedSetup env c.pins) ∧
      ∃ rest, setupEvents c = acceptedSetup env c.pins ++ .cfg p .low :: rest := by
  obtain ⟨hp, before, behind, hpins, hbefore⟩ := List.find?_eq_some_iff_append.1 h
  have hok : ∀ q ∈ before, cfgOk env q = true := by simpa using hbefore
  have hbad : cfgOk env p = false := by simpa using hp
  have htake : c.pins.takeWhile (fun q => cfgOk env q) = before := by
    rw [hpins, List.takeWhile_append_of_pos hok]
    simp [hbad]
  refine ⟨hbad, ?_, behind.map (fun q => .cfg q .low), ?_⟩
  · intro q l hm
    rw [acceptedSetup, htake] at hm
    obtain ⟨q', hq, he⟩ := List.mem_map.1 hm
    cases he
    exact hok _ hq
  · rw [setupEvents, acceptedSetup, htake, hpins, List.map_append, List.map_cons]

/-! ### What a pending list runs to -/

/-- The request in progress matters to the performed events only through the configuration they read (R92). -/
theorem State.performAll_inFlight_comm (events : List Event) {f : Option InFlight} {s : State}
    (h : ({ s with inFlight := f } : State).wiring = s.wiring) :
    ({ s with inFlight := f }).performAll events = { s.performAll events with inFlight := f } := by
  induction events generalizing s with
  | nil => rfl
  | cons e rest ih =>
    have he : ({ s with inFlight := f }).perform e = { s.perform e with inFlight := f } := by
      simp only [State.perform, h]
    rw [State.performAll_cons, State.performAll_cons, he]
    exact ih h

theorem State.performAll_begun_pending (f : InFlight) (events : List Event) {s : State} (hp : s.pending = []) :
    (({ s with inFlight := some f }).performAll events).pending = [] :=
  (State.performAll_pending _ _).trans hp

/-- Draining down to a rejected `Cfg`: the accepted events before it are performed, then it raises (R94, R188). -/
theorem run_drain_rejected {events : List Event} {p : PinId} (l : Level) (rest : List Instr) {s : State}
    (hok : Accepted s.env events) (hbad : cfgOk s.env p = false) :
    State.run (events.length + 1) { s with pending := calls events ++ .cfg p l :: rest } =
      .next ((s.performAll events).raise (.hardwareAccessError p)) := by
  have hlast : ∀ t : State, t.env = s.env →
      State.run 1 { t with pending := .cfg p l :: rest } = .next (t.raise (.hardwareAccessError p)) := by
    intro t ht
    refine run_succ ?_
    rw [step_pending rfl]
    simp [exec, execCfg, ht, hbad, State.raise]
  by_cases hne : events = []
  · subst hne
    exact hlast s rfl
  · have hdrain := run_drain (.cfg p l :: rest) hne hok
    rw [State.settle_of_pending (List.cons_ne_nil _ _)] at hdrain
    rw [run_add hdrain]
    exact hlast _ (State.performAll_env events s)

/-- An accepted request runs to the end of its events, the empty list included (R39, R115), and is then completed. -/
theorem run_accept {s : State} {events : List Event} (f : InFlight) (hp : s.pending = [])
    (hok : Accepted s.env events) :
    State.run events.length (s.accept f events) =
      .next (({ s with inFlight := some f }).performAll events).settle := by
  by_cases hne : events = []
  · subst hne
    simp only [State.accept, calls_nil, List.length_nil, run_zero, State.performAll_nil, hp]
  · have hdrain := run_drain (s := { s with inFlight := some f }) [] hne hok
    rw [List.append_nil] at hdrain
    rw [State.accept_of_ne hne, hdrain]
    exact congrArg (fun t => Host.Outcome.next (State.settle t))
      (State.with_no_pending (State.performAll_begun_pending f events hp))

/-- A command that runs to its end has delivered success and changed nothing else but what its events change (R39). -/
theorem run_accept_command {s : State} {events : List Event} (hs : s.Idle) (hok : Accepted s.env events) :
    State.run events.length (s.accept .command events) = .next ((s.performAll events).deliver .success) := by
  obtain ⟨hp, hf⟩ := hs
  have hwiring : ({ s with inFlight := some .command } : State).wiring = s.wiring := by simp [State.wiring, hf]
  rw [run_accept _ hp hok,
    State.settle_command (State.performAll_begun_pending _ _ hp) (State.performAll_inFlight _ _),
    State.performAll_inFlight_comm events hwiring]
  exact congrArg (fun t => Host.Outcome.next (State.deliver .success t))
    (State.with_no_inFlight ((State.performAll_inFlight events s).trans hf))

/-! ### The two semantics agree -/

/-- Executing the request `r` and then running on ends in the state of the big-step function. -/
def RunsToBigStep (r : Request) (s : State) : Prop :=
  ∃ n t, exec r.toInstr s = .next t ∧ State.run n t = .next (s.bigStep r)

/-- A request turned away at once. -/
theorem runsToBigStep_raise {r : Request} {s : State} {x : Result} (hs : s.Idle)
    (hplan : plan s.env s.phase s.cfg r = Plan.nothing x) (hexec : exec r.toInstr s = .next (s.raise x)) :
    RunsToBigStep r s :=
  ⟨0, _, hexec, by rw [State.bigStep_nothing hs.1 hplan, run_zero]⟩

/-- A command served by a READY engine. -/
theorem runsToBigStep_accept {r : Request} {s : State} {events : List Event} (hs : s.Idle)
    (hok : Accepted s.env events) (hplan : plan s.env s.phase s.cfg r = Plan.success events)
    (hexec : exec r.toInstr s = .next (s.accept .command events)) : RunsToBigStep r s :=
  ⟨_, _, hexec, by rw [State.bigStep_success hs.2 hplan, run_accept_command hs hok]⟩

/-- A CREATE whose six pins the platform accepts (R95, R96). -/
theorem run_create_accepted {s : State} {config : RawConfig} {c : EngineConfig} (hs : s.Idle)
    (hu : s.phase = .uninit) (hc : configOf config = some c) (hr : firstRejected s.env c.pins = none) :
    State.run (createEvents s.env c).length (s.accept (.create c) (createEvents s.env c)) =
      .next (s.bigStep (.create config)) := by
  rw [run_accept _ hs.1 (createEvents_accepted (cfgOk_of_firstRejected_none hr)),
    State.settle_create (State.performAll_begun_pending _ _ hs.1) (State.performAll_inFlight _ _)]
  simp only [State.bigStep, plan_create hu hc, planCreate, hr, Option.map_some, State.deliver]

/-- A CREATE that stops at the first pin the platform rejects (R94, R98). -/
theorem run_create_rejected {s : State} {config : RawConfig} {c : EngineConfig} {p : PinId} (hs : s.Idle)
    (hu : s.phase = .uninit) (hc : configOf config = some c) (hr : firstRejected s.env c.pins = some p) :
    State.run ((acceptedSetup s.env c.pins).length + 1) (s.accept (.create c) (createEvents s.env c)) =
      .next (s.bigStep (.create config)) := by
  obtain ⟨hbad, hok, rest, hsplit⟩ := setupEvents_split hr
  have hcalls : calls (createEvents s.env c) =
      calls (acceptedSetup s.env c.pins) ++ .cfg p .low :: calls (rest ++ initEvents s.env c) := by
    simp [createEvents, hsplit, Event.toInstr]
  rw [State.accept_of_ne (createEvents_ne s.env c), hcalls,
    run_drain_rejected (s := { s with inFlight := some (.create c) }) .low _ hok hbad,
    State.raise_eq_deliver (State.performAll_begun_pending _ _ hs.1)]
  simp only [State.bigStep, plan_create hu hc, planCreate, hr, Option.map_some]

/-- CREATE, tested in the order of R195. -/
theorem create_runsToBigStep {s : State} (config : RawConfig) (hs : s.Idle) : RunsToBigStep (.create config) s := by
  have hp := hs.1
  cases hph : s.phase with
  | ready =>
    refine runsToBigStep_raise (x := .alreadyInitialized) hs ?_ ?_
    · simp [plan, hph]
    · simp [Request.toInstr, exec, execCreate, State.whenIdle, hp, hph]
  | uninit =>
    cases hc : configOf config with
    | none =>
      refine runsToBigStep_raise (x := .configurationError) hs ?_ ?_
      · simp [plan, hph, hc]
      · simp [Request.toInstr, exec, execCreate, State.whenIdle, hp, hph, hc]
    | some c =>
      have hexec : exec (Request.create config).toInstr s =
          .next (s.accept (.create c) (createEvents s.env c)) := by
        simp [Request.toInstr, exec, execCreate, State.whenIdle, hp, hph, hc]
      cases hr : firstRejected s.env c.pins with
      | none => exact ⟨_, _, hexec, run_create_accepted hs hph hc hr⟩
      | some p => exact ⟨_, _, hexec, run_create_rejected hs hph hc hr⟩

/-- CLEAR, PRINT and SETCURSOR before a successful CREATE (R190). -/
theorem uninit_runsToBigStep {s : State} {r : Request} (hs : s.Idle) (hu : s.phase = .uninit)
    (hr : isCreate r.toInstr = false) : RunsToBigStep r s := by
  cases r with
  | create config => cases hr
  | clear => exact runsToBigStep_raise hs (by simp [plan, hu]) (State.whenReady_uninit hs.1 hu _)
  | print text => exact runsToBigStep_raise hs (by simp [plan, hu]) (State.whenReady_uninit hs.1 hu _)
  | setcursor col row => exact runsToBigStep_raise hs (by simp [plan, hu]) (State.whenReady_uninit hs.1 hu _)

/-- CLEAR of a READY engine (R105). -/
theorem clear_runsToBigStep {s : State} {c : EngineConfig} (hs : s.Idle) (hr : s.ReadyWith c) :
    RunsToBigStep .clear s := by
  refine runsToBigStep_accept (events := clearEvents s.env c) hs ?_ ?_ ?_
  · exact write8Events_accepted _ _ _ _ _ _
  · simp [plan, hr.1, hr.2]
  · exact State.whenReady_ready hs.1 hr _

/-- PRINT of a READY engine (R111). -/
theorem print_runsToBigStep {s : State} {c : EngineConfig} (text : List Nat) (hs : s.Idle)
    (hrow : s.printRow = none) (hr : s.ReadyWith c) : RunsToBigStep (.print text) s := by
  refine runsToBigStep_accept (events := printEvents s.env c 0 text) hs ?_ ?_ ?_
  · exact printEvents_accepted _ _ _ _ _
  · simp [plan, hr.1, hr.2]
  · have hexec := execPrint_ready hs.1 hr text
    rwa [← hrow] at hexec

/-- SETCURSOR of a READY engine, a negative row included (R121, R191). -/
theorem setcursor_runsToBigStep {s : State} {c : EngineConfig} (col : Nat) (row : Int) (hs : s.Idle)
    (hr : s.ReadyWith c) : RunsToBigStep (.setcursor col row) s := by
  have hexec : exec (Request.setcursor col row).toInstr s =
      .next (if row < 0 then s.raise (.rowIndexUndefined row)
        else s.accept .command (setcursorEvents s.env c col row.toNat)) := State.whenReady_ready hs.1 hr _
  by_cases hneg : row < 0
  · refine runsToBigStep_raise (x := .rowIndexUndefined row) hs ?_ ?_
    · simp [plan, hr.1, hr.2, hneg]
    · simpa [hneg] using hexec
  · refine runsToBigStep_accept (events := setcursorEvents s.env c col row.toNat) hs ?_ ?_ ?_
    · exact write8Events_accepted _ _ _ _ _ _
    · simp [plan, hr.1, hr.2, hneg]
    · simpa [hneg] using hexec

/-- Every request on an idle, coherent engine runs to the state of the big-step function. -/
theorem runsToBigStep (r : Request) {s : State} (hs : s.Idle) (hrow : s.printRow = none)
    (hcoh : s.phase = .ready ↔ s.cfg.isSome = true) : RunsToBigStep r s := by
  cases r with
  | create config => exact create_runsToBigStep config hs
  | clear =>
    rcases State.uninit_or_readyWith hcoh with hu | ⟨c, hr⟩
    · exact uninit_runsToBigStep hs hu rfl
    · exact clear_runsToBigStep hs hr
  | print text =>
    rcases State.uninit_or_readyWith hcoh with hu | ⟨c, hr⟩
    · exact uninit_runsToBigStep hs hu rfl
    · exact print_runsToBigStep text hs hrow hr
  | setcursor col row =>
    rcases State.uninit_or_readyWith hcoh with hu | ⟨c, hr⟩
    · exact uninit_runsToBigStep hs hu rfl
    · exact setcursor_runsToBigStep col row hs hr

/-- Settles O36: the first step takes the request off the port, the steps after it drain its events. -/
theorem stepsUnfoldBigStep : Obligations.StepsUnfoldBigStep := by
  intro s r moves hs hrow hcoh hhost
  obtain ⟨n, t, hexec, hrun⟩ := runsToBigStep r (s := s.issue (isCreate r.toInstr) moves) hs hrow hcoh
  refine ⟨n + 1, ?_⟩
  rw [run_succ ((step_request hs.1 hhost).trans hexec), hrun, State.issue_eq_issued]

end Sys2Proof.Machine
end

section
/-! Every step keeps the invariant of Safety.lean. First each operation on a state keeps it: performing an event,
raising a result, a move of the host, loading a request's events, completing a request. Then what a step of such a
state can be, and the statements about steps. -/

namespace Sys2Proof.Machine

/-! ### What the invariant says of the configuration and the display -/

/-- A READY engine reads its configuration register: no CREATE is in progress. -/
theorem State.Inv.wiring_eq_cfg {s : State} (h : s.Inv) (hr : s.phase = .ready) : s.wiring = s.cfg := by
  unfold State.wiring
  split
  · next c hf => rw [h.creating c hf] at hr; cases hr
  · rfl
  · rfl

theorem State.Inv.cfg_ok {s : State} (h : s.Inv) {c : EngineConfig} (hc : s.cfg = some c) : c.Ok :=
  h.config_ok c ((h.wiring_eq_cfg (h.ready_iff.2 (by simp [hc]))).trans hc)

theorem State.Inv.ready_of_isKnown {s : State} (h : s.Inv) (hk : s.display.shadow.IsKnown) : s.phase = .ready := by
  obtain ⟨ddram, ac, hk⟩ := hk
  exact h.display_valid ddram ac hk

/-! ### Each operation keeps the invariant -/

/-- Performing any event (R24, R27): no latch is listed twice, and no event makes the shadow known. -/
theorem State.Inv.perform {s : State} (h : s.Inv) (e : Event) : (s.perform e).Inv :=
  { h with
    latches_wf := Latches.wf_after e h.latches_wf
    latches_trace := by simp [Latches.afterAll_append, ← h.latches_trace]
    display_valid := fun ddram ac hk => h.ready_of_isKnown (Display.isKnown_of_after ⟨ddram, ac, hk⟩)
    ddram_wf := Display.wf_after s.env s.wiring s.out e h.ddram_wf }

/-- Raising a result (R186): nothing is pending or in progress any more. -/
theorem State.Inv.raise {s : State} (h : s.Inv) (x : Result) : (s.raise x).Inv :=
  { h with
    config_ok := fun _ hc => h.cfg_ok hc
    creating := fun _ hf => nomatch hf
    serving := fun hf => nomatch hf
    idle := fun _ => rfl
    pending_events := ⟨[], rfl, by simp⟩
    configuring := fun _ _ hm => nomatch hm }

/-- The host makes a move that leaves the engine and the shadow alone: it lets time pass. -/
theorem State.Inv.wait {s : State} (h : s.Inv) (moves : List HostMove) (us : Nat) :
    ({ s with host := moves, display := s.display.elapse us } : State).Inv := { h with }

/-- The host issues a request: the shadow may be lost, never gained. -/
theorem State.Inv.issue {s : State} (h : s.Inv) (create : Bool) (moves : List HostMove) :
    (s.issue create moves).Inv :=
  { h with
    display_valid := fun ddram ac hk => h.ready_of_isKnown (Display.isKnown_of_requested ⟨ddram, ac, hk⟩)
    ddram_wf := Display.wf_requested create h.ddram_wf }

/-- The reset values of R35, whatever results have been delivered and whatever the host owes the display. -/
theorem State.inv_reset (env : Env) (host : List HostMove) (results : List Result) {display : Display}
    (hshadow : display.shadow = .unknown) :
    ({ State.init env host with results := results, display := display } : State).Inv where
  ready_iff := by simp [State.init]
  config_ok := fun _ hc => nomatch hc
  creating := fun _ hf => nomatch hf
  serving := fun hf => nomatch hf
  idle := fun _ => rfl
  pending_events := ⟨[], rfl, by simp⟩
  configuring := fun _ _ hm => nomatch hm
  print_row := rfl
  latches_wf := rfl
  latches_trace := rfl
  display_valid := by simp [hshadow]
  ddram_wf := by simp [hshadow]

/-- A CREATE whose checks passed is begun (R92, R95). -/
theorem State.Inv.beginCreate {s : State} (h : s.Inv) {c : EngineConfig} (hok : c.Ok) (hu : s.phase = .uninit) :
    ({ s with pending := calls (createEvents s.env c), inFlight := some (.create c) } : State).Inv :=
  { h with
    config_ok := fun _ hc => by cases hc; exact hok
    creating := fun _ _ => hu
    serving := fun hf => nomatch hf
    idle := fun hp => absurd ((calls_eq_nil _).1 hp) (createEvents_ne s.env c)
    pending_events := ⟨_, rfl, fun e he => ⟨c, rfl, createEvents_of s.env c e he⟩⟩
    configuring := fun _ _ _ => ⟨c, rfl⟩ }

/-- A command of a READY engine is begun with events of the engine's own, none of them a `Cfg`. -/
theorem State.Inv.beginCommand {s : State} (h : s.Inv) {c : EngineConfig} (hr : s.ReadyWith c) {events : List Event}
    (hne : events ≠ []) (hof : ∀ e ∈ events, Event.Of c e ∧ ∀ p l, e ≠ .cfg p l) :
    ({ s with pending := calls events, inFlight := some .command } : State).Inv :=
  { h with
    config_ok := fun _ hc => h.cfg_ok hc
    creating := fun _ hf => nomatch hf
    serving := fun _ => hr.1
    idle := fun hp => absurd ((calls_eq_nil _).1 hp) hne
    pending_events := ⟨events, rfl, fun e he => ⟨c, hr.2, (hof e he).1⟩⟩
    configuring := fun p l hm => by
      obtain ⟨e, he, hi⟩ := List.mem_map.1 hm
      exact absurd (toInstr_injective (b := .cfg p l) hi) ((hof e he).2 p l) }

/-- A command is accepted, one with no event at all being completed at once (R39, R115). -/
theorem State.Inv.acceptCommand {s : State} (h : s.Inv) {c : EngineConfig} (hr : s.ReadyWith c) {events : List Event}
    (hof : ∀ e ∈ events, Event.Of c e ∧ ∀ p l, e ≠ .cfg p l) :
    (s.accept .command events).Inv := by
  by_cases hne : events = []
  · subst hne
    exact h.raise .success
  · rw [State.accept_of_ne hne]
    exact h.beginCommand hr hne hof

/-- The last event of a CREATE has been performed: the engine is READY with its configuration (R96), and what the
CREATE's clear left in the display is known (R172). -/
theorem State.Inv.completeCreate {s : State} (h : s.Inv) {c : EngineConfig} (hf : s.inFlight = some (.create c)) :
    ({ s with
      pending := []
      phase := .ready
      cfg := some c
      inFlight := none
      results := s.results ++ [.success]
      display := s.display.created } : State).Inv :=
  { h with
    ready_iff := by simp
    config_ok := fun d hd => by cases hd; exact h.config_ok c (by simp [State.wiring, hf])
    creating := fun _ hn => nomatch hn
    serving := fun hn => nomatch hn
    idle := fun _ => rfl
    pending_events := ⟨[], rfl, by simp⟩
    configuring := fun _ _ hm => nomatch hm
    display_valid := fun _ _ _ => rfl
    ddram_wf := Shadow.wf_created h.ddram_wf }

/-- The head of `pending` is taken off the list; the request is completed where it was the last (R39, R96). -/
theorem State.Inv.dropHead {s : State} (h : s.Inv) {e : Event} {more : List Event}
    (hp : s.pending = calls (e :: more)) : ({ s with pending := calls more } : State).settle.Inv := by
  obtain ⟨events, hevents, hof⟩ := h.pending_events
  obtain rfl : events = e :: more := calls_injective (hevents.symm.trans hp)
  have htail (hidle : calls more = [] → s.inFlight = none) : ({ s with pending := calls more } : State).Inv :=
    { h with
      idle := hidle
      pending_events := ⟨more, rfl, fun d hd => hof d (List.mem_cons_of_mem e hd)⟩
      configuring := fun p l hm => h.configuring p l (by rw [hp]; exact List.mem_cons_of_mem _ hm) }
  cases more with
  | cons d rest =>
    rw [State.settle_of_pending (List.cons_ne_nil _ _)]
    exact htail fun hnil => nomatch hnil
  | nil =>
    rcases hf : s.inFlight with _ | (c | _)
    · rw [State.settle_of_idle rfl, ← hf]
      exact htail fun _ => hf
    · rw [State.settle_create rfl rfl]
      exact h.completeCreate hf
    · rw [State.settle_command rfl rfl]
      exact h.raise .success

/-! ### What a step can be -/

/-- A busy step under the invariant: the head is an event, which is performed and taken off the list, or a `Cfg` of a
rejected pin, which raises (R30, R94). -/
theorem State.Inv.busy_cases {s t : State} (h : s.Inv) {i : Instr} {rest : List Instr} (hp : s.pending = i :: rest)
    (hexec : exec i { s with pending := rest } = .next t) :
    ∃ e more, s.pending = calls (e :: more) ∧
      (t = ({ s.perform e with pending := calls more } : State).settle ∨ ∃ x, t = s.raise x) := by
  obtain ⟨events, hevents, -⟩ := h.pending_events
  rw [hp] at hevents
  cases events with
  | nil => cases hevents
  | cons e more =>
    obtain ⟨rfl, rfl⟩ := List.cons.inj hevents
    refine ⟨e, more, hp, ?_⟩
    rcases exec_toInstr e { s with pending := calls more } with ⟨hok, -⟩ | ⟨p, l, -, -, hbad⟩
    · exact .inl (Host.Outcome.next.inj (hexec.symm.trans hok))
    · exact .inr ⟨_, Host.Outcome.next.inj (hexec.symm.trans hbad)⟩

/-- A request keeps the invariant: it is turned away, or its events are loaded. -/
theorem State.Inv.request {s t : State} (h : s.Inv) {r : Request} (hexec : exec r.toInstr s = .next t) : t.Inv := by
  cases request_cases hexec with
  | turnedAway x _ ht => rw [ht]; exact h.raise x
  | creating config c _ hu hc ht => rw [ht]; exact h.beginCreate (configOf_ok hc) hu
  | serving c transfers _ hr ht hrow =>
    have hkept : ({ s with printRow := t.printRow } : State) = s := by
      have hnone : t.printRow = s.printRow := hrow.elim id (·.trans h.print_row.symm)
      rw [hnone]
    rw [ht, hkept]
    refine h.acceptCommand hr fun e he => ?_
    obtain ⟨x, -, hx⟩ := List.mem_flatMap.1 he
    exact write8Events_of c x.1 x.2 (.inl rfl) e hx

/-- Settles O14, by the cases of a step. -/
theorem stepKeepsInvariant : Obligations.StepKeepsInvariant := by
  intro s t h hstep
  cases step_cases hstep with
  | busy i rest hp hexec =>
    obtain ⟨e, more, hpending, rfl | ⟨x, rfl⟩⟩ := h.busy_cases hp hexec
    · exact (h.perform e).dropHead hpending
    · exact h.raise x
  | still _ _ ht => rw [ht]; exact h
  | wait us moves _ _ ht => rw [ht]; exact h.wait moves us
  | reset moves _ _ ht => rw [ht]; exact State.inv_reset s.env moves s.results rfl
  | malformed _ moves _ _ ht => rw [ht]; exact (h.issue false moves).raise _
  | reserved _ _ moves _ ht _ => rw [ht]; exact (h.issue false moves).raise _
  | request r moves _ hexec _ => exact (h.issue _ moves).request hexec

/-! ### What writes the configuration -/

/-- Accepting a command writes neither phase nor configuration, not even where it completes at once. -/
theorem State.acceptCommand_phase_cfg (events : List Event) (s : State) :
    (s.accept .command events).phase = s.phase ∧ (s.accept .command events).cfg = s.cfg := by
  by_cases hne : events = []
  · subst hne; exact ⟨rfl, rfl⟩
  · rw [State.accept_of_ne hne]; exact ⟨rfl, rfl⟩

/-- No request writes phase or configuration when it is taken: a CREATE does so with its last event (R96). -/
theorem request_phase_cfg {s t : State} {r : Request} (h : exec r.toInstr s = .next t) :
    t.phase = s.phase ∧ t.cfg = s.cfg := by
  cases request_cases h with
  | turnedAway x _ ht => rw [ht]; exact ⟨rfl, rfl⟩
  | creating config c _ _ _ ht => rw [ht]; exact ⟨rfl, rfl⟩
  | serving c transfers _ _ ht _ => rw [ht]; exact State.acceptCommand_phase_cfg _ _

/-- What a step can do to phase and configuration: nothing, the host's reset, or the last event of a CREATE. -/
theorem State.Inv.phase_cfg_cases {s t : State} (h : s.Inv) (hstep : step s = .next t) :
    (t.phase = s.phase ∧ t.cfg = s.cfg) ∨
    (s.pending = [] ∧ s.host.head? = some .reset ∧ t.phase = .uninit ∧ t.cfg = none) ∨
    ∃ c e, s.inFlight = some (.create c) ∧ s.pending = calls [e] ∧ t.cfg = some c ∧ t.trace = s.trace ++ [e] := by
  cases step_cases hstep with
  | busy i rest hp hexec =>
    obtain ⟨e, more, hpending, rfl | ⟨x, rfl⟩⟩ := h.busy_cases hp hexec
    · rcases State.settle_cases { s.perform e with pending := calls more } with ht | ⟨-, -, ht⟩ | ⟨hnil, c, hf, ht⟩
      · rw [ht]; exact .inl ⟨rfl, rfl⟩
      · rw [ht]; exact .inl ⟨rfl, rfl⟩
      · obtain rfl := (calls_eq_nil more).1 hnil
        rw [ht]; exact .inr (.inr ⟨c, e, hf, hpending, rfl, rfl⟩)
    · exact .inl ⟨rfl, rfl⟩
  | still _ _ ht => rw [ht]; exact .inl ⟨rfl, rfl⟩
  | wait us moves _ _ ht => rw [ht]; exact .inl ⟨rfl, rfl⟩
  | reset moves hp hh ht => rw [ht]; exact .inr (.inl ⟨hp, by rw [hh]; rfl, rfl, rfl⟩)
  | malformed _ moves _ _ ht => rw [ht]; exact .inl ⟨rfl, rfl⟩
  | reserved _ _ moves _ ht _ => rw [ht]; exact .inl ⟨rfl, rfl⟩
  | request r moves _ hexec _ => exact .inl (request_phase_cfg (s := s.issue _ moves) hexec)

/-- Settles O18: of the three things a step can do, a CREATE's last event needs UNINIT and a reset does not make
READY. -/
theorem configurationWrittenOnlyByCreate : Obligations.ConfigurationWrittenOnlyByCreate := by
  constructor
  · intro s t h hready hstep
    rcases h.phase_cfg_cases hstep with ⟨hphase, hcfg⟩ | hreset | ⟨c, _, hf, -⟩
    · exact .inl ⟨hphase.trans hready, hcfg⟩
    · exact .inr hreset
    · rw [h.creating c hf] at hready; cases hready
  · intro s t h huninit hstep hready
    rcases h.phase_cfg_cases hstep with ⟨hphase, -⟩ | ⟨-, -, hreset, -⟩ | hcreate
    · rw [hphase, huninit] at hready; cases hready
    · rw [hreset] at hready; cases hready
    · exact hcreate

end Sys2Proof.Machine
end

section
/-! One step and the state after reset: the moves of the host, the head of `pending`, the closed port, the reset
values, and how much any step can add. -/

namespace Sys2Proof.Machine

open Sys2Proof.Statements

/-! ### The host's moves on an idle engine -/

theorem step_still {s : State} (hp : s.pending = []) (hh : s.host = []) : step s = .next s := by
  simp [step, State.fetch, State.fetchWith, hp, hh]

theorem step_wait {s : State} {us : Nat} {moves : List HostMove} (hp : s.pending = [])
    (hh : s.host = .wait us :: moves) :
    step s = .next { s with host := moves, display := s.display.elapse us } := by
  simp [step, State.fetch, State.fetchWith, hp, hh]

theorem step_reset {s : State} {moves : List HostMove} (hp : s.pending = []) (hh : s.host = .reset :: moves) :
    step s = .next ({ s with host := moves } : State).resetEngine := by
  simp [step, State.fetch, State.fetchWith, hp, hh]

theorem isCreate_eq_false {i : Instr} (h : ∀ config, i ≠ .create config) : isCreate i = false := by
  unfold isCreate
  split
  · next config => exact absurd rfl (h config)
  · rfl

/-- Settles O9: what is fetched is run, the host's duties being looked at where it issues a request. -/
theorem stepRunsDecodedInstruction : Obligations.StepRunsDecodedInstruction := by
  intro s
  refine ⟨fun i rest hp => step_pending hp, fun bytes i moves hp hh hd => ⟨?_, fun hi => ?_⟩,
    fun config moves hp hh => ?_, fun r moves hp hh hr => ?_⟩
  · rintro ⟨config, rfl⟩
    rw [step_packet hp hh hd, State.issue_eq_issued]; rfl
  · rw [step_packet hp hh hd, State.issue_eq_issued, isCreate_eq_false hi]
  · rw [step_request hp hh, State.issue_eq_issued]; rfl
  · have hi : isCreate r.toInstr = false := by
      cases r with
      | create config => exact absurd rfl (hr config)
      | clear => rfl
      | print text => rfl
      | setcursor col row => rfl
    rw [step_request hp hh, State.issue_eq_issued, hi]

/-- Settles O10: the head is an accepted event, and no request completes while others are pending behind it. -/
theorem busyStepPerformsHead : Obligations.BusyStepPerformsHead := by
  intro s e rest hp hne hok
  have hsettle := State.settle_of_pending (s := ({ s with pending := rest } : State).perform e) hne
  calc step s = exec e.toInstr { s with pending := rest } := step_pending hp
    _ = .next (({ s with pending := rest } : State).perform e).settle := exec_toInstr_ok hok
    _ = .next (({ s with pending := rest } : State).perform e) := congrArg Host.Outcome.next hsettle

/-- Settles O11: neither with no move nor with a wait is an instruction run. -/
theorem idleEngineStays : Obligations.IdleEngineStays :=
  fun _ hp => ⟨step_still hp, fun _ _ => step_wait hp⟩

/-! ### Requests at reset and at a closed port -/

/-- A request answers nothing while something is pending (R39). -/
theorem State.whenIdle_busy {s : State} (h : s.pending ≠ []) (answer : Host.Outcome State Fault Refusal) :
    s.whenIdle answer = .refused .portClosed := by
  unfold State.whenIdle
  split
  · contradiction
  · rfl

theorem State.whenIdle_idle {s : State} (h : s.pending = []) (answer : Host.Outcome State Fault Refusal) :
    s.whenIdle answer = answer := by simp only [State.whenIdle, h]

/-- Settles O35: each of the five request instructions asks first whether the engine is idle. -/
theorem portClosedWhileBusy : Obligations.PortClosedWhileBusy := by
  rintro s i hp (⟨config, rfl⟩ | rfl | ⟨text, rfl⟩ | ⟨col, row, rfl⟩ | ⟨opcode, rest, rfl⟩) <;>
    exact State.whenIdle_busy hp _

/-- The three commands are refused in UNINIT (R190). -/
theorem exec_command_uninit {s : State} {i : Instr} (hp : s.pending = []) (hu : s.phase = .uninit)
    (hi : i = .clear ∨ (∃ text, i = .print text) ∨ ∃ col row, i = .setcursor col row) :
    exec i s = .next (s.raise .notInitialized) := by
  rcases hi with rfl | ⟨text, rfl⟩ | ⟨col, row, rfl⟩ <;> exact State.whenReady_uninit hp hu _

/-- Settles O12: the fields of the reset state, the three commands it refuses, and the host's reset. -/
theorem resetState : Obligations.ResetState := by
  refine ⟨fun env host => ⟨rfl, rfl, Latches.get_nil, rfl, rfl, rfl, ?_⟩, fun s moves hp hh => step_reset hp hh⟩
  intro i hi
  exact exec_command_uninit (s := State.init env host) rfl rfl hi

/-- Settles O13: the invariant holds of the reset values, and without a configuration there is no enable line. -/
theorem resetMeetsInvariant : Obligations.ResetMeetsInvariant :=
  fun env host => ⟨State.inv_reset env host [] rfl, fun _ _ hc _ => nomatch hc⟩

/-! ### Performed events -/

/-- Settles O43: executing an accepted event performs it and then completes what it was the last of. -/
theorem collaboratorCallsComplete : Obligations.CollaboratorCallsComplete := by
  intro s e hok
  rw [exec_toInstr_ok hok]
  cases e <;> rfl

/-- Settles O45: a pin event is a write of its pin's latch. -/
theorem latchFrame : Obligations.LatchFrame := by
  refine fun out p l => ⟨fun e he => ?_, Latches.after_sleep (out := out)⟩
  have hafter : out.after e = out.set p l := by rcases he with rfl | rfl <;> rfl
  rw [hafter]
  exact ⟨Latches.get_set_self p l out, fun q hq => Latches.get_set_ne hq l out⟩

/-! ### How much a step adds -/

/-- From `s` to `t` the trace grows by at most one event, which alone changes the latches, at most one result is
delivered, and the parameters stay (R27, R30, R31). -/
def AddsAtMostOne (s t : State) : Prop :=
  ((t.trace = s.trace ∧ t.out = s.out) ∨ ∃ e, t.trace = s.trace ++ [e] ∧ t.out = s.out.after e) ∧
  (t.results = s.results ∨ ∃ r, t.results = s.results ++ [r]) ∧
  t.env = s.env

/-- Raising adds a result and no event. -/
theorem addsAtMostOne_raise (s : State) (x : Result) : AddsAtMostOne s (s.raise x) :=
  ⟨.inl ⟨rfl, rfl⟩, .inr ⟨x, rfl⟩, rfl⟩

/-- Completing a request adds its result, and no event to those just performed. -/
theorem AddsAtMostOne.settle {s t : State} (h : AddsAtMostOne s t) (hresults : t.results = s.results) :
    AddsAtMostOne s t.settle := by
  obtain ⟨hevent, -, henv⟩ := h
  rcases t.settle_cases with ht | ⟨-, -, ht⟩ | ⟨-, c, -, ht⟩ <;> rw [ht]
  · exact ⟨hevent, .inl hresults, henv⟩
  · exact ⟨hevent, .inr ⟨.success, congrArg (· ++ _) hresults⟩, henv⟩
  · exact ⟨hevent, .inr ⟨.success, congrArg (· ++ _) hresults⟩, henv⟩

/-- Loading events and putting a request in progress adds nothing, whatever becomes of the row counter. -/
theorem addsAtMostOne_load (s : State) (pending : List Instr) (row : Option Nat) (f : Option InFlight) :
    AddsAtMostOne s { s with pending := pending, printRow := row, inFlight := f } :=
  ⟨.inl ⟨rfl, rfl⟩, .inl rfl, rfl⟩

theorem addsAtMostOne_event {s t : State} {e : Event} (h : exec e.toInstr s = .next t) : AddsAtMostOne s t := by
  rcases exec_toInstr e s with ⟨hok, -⟩ | ⟨p, l, -, -, hbad⟩
  · rw [Host.Outcome.next.inj (h.symm.trans hok)]
    exact AddsAtMostOne.settle ⟨.inr ⟨e, rfl, rfl⟩, .inl rfl, rfl⟩ rfl
  · rw [Host.Outcome.next.inj (h.symm.trans hbad)]
    exact addsAtMostOne_raise s _

theorem addsAtMostOne_request {s t : State} {r : Request} (h : exec r.toInstr s = .next t) : AddsAtMostOne s t := by
  cases request_cases h with
  | turnedAway x _ ht => rw [ht]; exact addsAtMostOne_raise s x
  | creating config c _ _ _ ht => rw [ht]; exact addsAtMostOne_load s _ s.printRow _
  | serving c transfers _ _ ht _ => rw [ht]; exact (addsAtMostOne_load s _ t.printRow _).settle rfl

theorem addsAtMostOne_call {s t : State} {events : EngineConfig → List Event} (h : s.callWith events = .next t) :
    AddsAtMostOne s t := by
  obtain ⟨c, -, rfl⟩ := State.callWith_next h
  exact addsAtMostOne_load s _ s.printRow s.inFlight

theorem addsAtMostOne_reserved {s t : State} {opcode : Byte} {rest : List Byte}
    (h : exec (.reservedRequest opcode rest) s = .next t) : AddsAtMostOne s t := by
  by_cases hp : s.pending = []
  · cases (State.whenIdle_idle hp _).symm.trans h
    exact addsAtMostOne_raise s _
  · cases (State.whenIdle_busy hp _).symm.trans h

/-- No instruction adds more, in any state. -/
theorem addsAtMostOne_exec {i : Instr} {s t : State} (h : exec i s = .next t) : AddsAtMostOne s t := by
  cases i with
  | create config => exact addsAtMostOne_request (r := .create config) h
  | clear => exact addsAtMostOne_request (r := .clear) h
  | print text => exact addsAtMostOne_request (r := .print text) h
  | setcursor col row => exact addsAtMostOne_request (r := .setcursor col row) h
  | reservedRequest opcode rest => exact addsAtMostOne_reserved h
  | cfg p l => exact addsAtMostOne_event (e := .cfg p l) h
  | wr p l => exact addsAtMostOne_event (e := .wr p l) h
  | sleep d => exact addsAtMostOne_event (e := .sleep d) h
  | returnhome | cursorshift | setcgramaddr => cases h
  | rawInit1 | rawInit2 | displaycontrol | functionset | entrymodeset | cleardisplay | setddramaddr | data | write8
  | nibble | pulse => exact addsAtMostOne_call h

/-- Settles O17: around the instruction it runs, a step only takes it off the list it came from. -/
theorem stepAppendsAtMostOneEvent : Obligations.StepAppendsAtMostOneEvent := by
  intro s t hreset hstep
  show AddsAtMostOne s t
  cases step_cases hstep with
  | busy i rest _ hexec => exact addsAtMostOne_exec (s := { s with pending := rest }) hexec
  | still _ _ ht => rw [ht]; exact ⟨.inl ⟨rfl, rfl⟩, .inl rfl, rfl⟩
  | wait us moves _ _ ht => rw [ht]; exact ⟨.inl ⟨rfl, rfl⟩, .inl rfl, rfl⟩
  | reset moves hp hh _ => exact absurd ⟨hp, by rw [hh]; rfl⟩ hreset
  | malformed _ moves _ _ ht => rw [ht]; exact addsAtMostOne_raise (s.issue false moves) _
  | reserved _ _ moves _ ht _ => rw [ht]; exact addsAtMostOne_raise (s.issue false moves) _
  | request r moves _ hexec _ => exact addsAtMostOne_request (s := s.issue _ moves) hexec

end Sys2Proof.Machine
end

section
/-! The levels a transfer leaves on the six pins (R37), and PRINT served to its end. -/

namespace Sys2Proof.Machine

open Sys2Proof.Statements

/-! ### The levels after a transfer -/

theorem lowNibble_getLsbD (v : Byte) {i : Nat} (h : i < 4) : (lowNibble v).getLsbD i = v.getLsbD i := by
  rw [lowNibble, BitVec.getLsbD_ofNat, decide_eq_true h, Bool.true_and]; rfl

/-- A nibble and its pulse leave the nibble's bits on the data pins (R37). -/
theorem afterAll_half_data {c : EngineConfig} (h : c.Ok) (out : Latches) (n : Nibble) :
    let after := Latches.afterAll (nibbleEvents c n ++ pulseEvents c) out
    after.get c.d0 = some (lvl (n.getLsbD 0)) ∧ after.get c.d1 = some (lvl (n.getLsbD 1)) ∧
    after.get c.d2 = some (lvl (n.getLsbD 2)) ∧ after.get c.d3 = some (lvl (n.getLsbD 3)) := by
  obtain ⟨-, ⟨b0, b1, b2, b3⟩, ⟨c1, c2, c3⟩, ⟨d2, d3⟩, e3⟩ := h.distinct
  simp [nibbleEvents, pulseEvents, Latches.get_set, b0.symm, b1.symm, b2.symm, b3.symm, c1, c2, c3, d2, d3, e3]

@[simp] theorem afterAll_initDelayEvents (d : Option Nat) (out : Latches) :
    Latches.afterAll (initDelayEvents d) out = out := by cases d <;> rfl

/-- The low nibble and its pulse leave the levels of the whole transfer, where register select already stands. -/
theorem transferLevels_lowHalf {c : EngineConfig} (hok : c.Ok) (v : Byte) {rsFlag : Bool} {out : Latches}
    (hrs : out.get c.rs = some (lvl rsFlag)) :
    TransferLevels c v rsFlag (Latches.afterAll (nibbleEvents c (lowNibble v) ++ pulseEvents c) out) := by
  obtain ⟨hen, hkept⟩ := afterAll_half hok out (lowNibble v)
  obtain ⟨h0, h1, h2, h3⟩ := afterAll_half_data hok out (lowNibble v)
  rw [lowNibble_getLsbD v (by decide)] at h0 h1 h2 h3
  exact ⟨hkept.trans hrs, hen, h0, h1, h2, h3⟩

/-- Settles O46: register select is written first and the high half leaves it alone; the low half gives the levels. -/
theorem transferEndLevels : Obligations.TransferEndLevels := by
  intro c v rsFlag settle initDelay out hok
  rw [write8Events_halves, Latches.afterAll_append, Latches.afterAll_append, Latches.afterAll_append,
    afterAll_initDelayEvents]
  obtain ⟨-, hkept⟩ := afterAll_half hok (Latches.afterAll [.sleep settle, .wr c.rs (lvl rsFlag)] out) (highNibble v)
  exact transferLevels_lowHalf hok v (hkept.trans (Latches.get_set_self c.rs (lvl rsFlag) out))

/-- Settles O20: a CREATE ends with the transfer of its clear. -/
theorem createEndLevels : Obligations.CreateEndLevels := by
  intro env c out hok
  have hlast : TransferLevels c env.k.clearDisplay false (Latches.afterAll (createEvents env c) out) := by
    rw [createEvents, initEvents, Latches.afterAll_append, Latches.afterAll_append]
    exact transferEndLevels c env.k.clearDisplay false tSettle none _ hok
  refine ⟨hlast, fun hdefault => ?_⟩
  rw [hdefault] at hlast
  exact hlast

/-! ### PRINT -/

/-- An accepted command with events is served: loaded whole, then drained (R28, R96). -/
theorem serves_of_accept {s : State} {i : Instr} {events : List Event} (hs : s.Idle) (hne : events ≠ [])
    (hok : Accepted s.env events) (hexec : exec i s = .next (s.accept .command events)) : Serves s i events := by
  have hrun := run_accept_command hs hok
  rw [State.accept_of_ne hne] at hexec hrun
  refine ⟨hexec, hrun.trans ?_⟩
  rw [State.deliver, State.performAll_frame]

/-- Raising on an idle engine only delivers the result. -/
theorem State.raise_of_idle {s : State} (hs : s.Idle) (x : Result) : s.raise x = s.deliver x := by
  rw [State.raise_eq_deliver hs.1, State.with_no_inFlight hs.2]

theorem printEvents_ne (env : Env) (c : EngineConfig) (row : Nat) {text : List Nat} (h : text ≠ []) :
    printEvents env c row text ≠ [] := by
  cases text with
  | nil => contradiction
  | cons code rest =>
    rw [printEvents]
    split
    · exact List.append_ne_nil_of_left_ne_nil (write8Events_ne _ _ _ _ _) _
    · exact List.append_ne_nil_of_left_ne_nil (write8Events_ne _ _ _ _ _) _

/-- Settles O32: the text is expanded into its events when it is accepted; without any the request completes. -/
theorem printCompletes : Obligations.PrintCompletes := by
  intro s c text hs hr hrow
  have hexec (text : List Nat) : exec (.print text) s = .next (s.accept .command (printEvents s.env c 0 text)) := by
    have h := execPrint_ready hs.1 hr text
    rwa [← hrow] at h
  refine ⟨fun hne => ?_, ?_⟩
  · exact serves_of_accept hs (printEvents_ne s.env c 0 hne) (printEvents_accepted _ _ _ _ _) (hexec text)
  · exact (hexec []).trans (congrArg Host.Outcome.next (State.raise_of_idle hs .success))

end Sys2Proof.Machine
end

section
/-! What the receiver makes of the wires: an internal operation called in place, a transfer as one frame, the order of
the writes before a pulse, and what one event does to the display's memory. -/

namespace Sys2Proof.Machine

open Sys2Proof.Statements

/-! ### The row offset table -/

theorem RowCount.toNat_eq_last (rows : RowCount) : rows.toNat = rows.last.val + 1 := by cases rows <;> rfl

/-- A row of the panel is not clamped (R122). -/
theorem clampRow_of_lt {rows : RowCount} {row : Nat} (h : row < rows.toNat) : (clampRow rows row).val = row := by
  rw [RowCount.toNat_eq_last] at h
  exact Nat.min_eq_left (Nat.le_of_lt_succ h)

/-- Settles O30: the table is a constant, and the clamp leaves a row of the panel alone. -/
theorem rowOffsetTable : Obligations.RowOffsetTable := by
  refine ⟨rfl, rfl, rfl, rfl, fun rows col row index hrow hindex => ?_⟩
  rw [cursorAddr, Fin.ext ((clampRow_of_lt hrow).trans hindex.symm)]

/-! ### Internal operations -/

/-- An internal operation whose configuration is there calls its events in place, and they drain one a step (R17). -/
theorem calls_of_callWith {s : State} {i : Instr} {c : EngineConfig} {events : EngineConfig → List Event}
    (hexec : exec i s = s.callWith events) (hwired : s.wiring = some c) (hne : events c ≠ [])
    (hok : Accepted s.env (events c)) : Calls s i (events c) := by
  refine ⟨hexec.trans (State.callWith_wired hwired events), (run_drain s.pending hne hok).trans ?_⟩
  rw [State.performAll_frame]

theorem nibbleEvents_accepted (env : Env) (c : EngineConfig) (n : Nibble) : Accepted env (nibbleEvents c n) := by
  intro p l h
  simp [nibbleEvents] at h

/-- Settles O41: NIBBLE is the call of its four writes, in ascending index. -/
theorem nibbleCompletes : Obligations.NibbleCompletes := fun s _ n hwired =>
  calls_of_callWith (events := fun c => nibbleEvents c n) rfl hwired (List.cons_ne_nil _ _)
    (nibbleEvents_accepted s.env _ n)

/-! ### A transfer is one frame -/

/-- Settles O48: a transfer is latched as its two nibbles, which join to the byte. -/
theorem transferIsOneFrame : Obligations.TransferIsOneFrame := by
  intro c v rsFlag settle initDelay out hok hen
  rw [framesFrom, latchFrom_write8 hok v rsFlag settle initDelay hen]
  simp only [pairFrames, frameOf, joinNibbles_halves]

/-! ### The order of the writes before a pulse -/

/-- The level of every pin: what the latches say, whatever order they are listed in. -/
def Latches.levels (out : Latches) : PinId → Option Level := fun p => out.get p

/-- The levels with pin `p` driven to `l`. -/
def driveTo (levels : PinId → Option Level) (p : PinId) (l : Level) : PinId → Option Level :=
  fun q => if q = p then some l else levels q

theorem driveTo_same (levels : PinId → Option Level) (p : PinId) (l : Level) :
    driveTo levels p l p = some l := if_pos rfl

theorem driveTo_other {p q : PinId} (h : q ≠ p) (levels : PinId → Option Level) (l : Level) :
    driveTo levels p l q = levels q := if_neg h

/-- Driving two pins commutes: at each of the two, only its own level is seen. -/
theorem driveTo_comm {p q : PinId} (h : p ≠ q) (levels : PinId → Option Level) (l m : Level) :
    driveTo (driveTo levels p l) q m = driveTo (driveTo levels q m) p l := by
  funext r
  by_cases hp : r = p
  · subst hp
    rw [driveTo_other h, driveTo_same, driveTo_same]
  · rw [driveTo_other hp]
    by_cases hq : r = q
    · subst hq
      rw [driveTo_same, driveTo_same]
    · rw [driveTo_other hq, driveTo_other hp, driveTo_other hq]

/-- The effect of an event on the levels. -/
def drive (levels : PinId → Option Level) : Event → PinId → Option Level
  | .cfg p l => driveTo levels p l
  | .wr p l => driveTo levels p l
  | .sleep _ => levels

theorem Latches.levels_set (p : PinId) (l : Level) (out : Latches) :
    (out.set p l).levels = driveTo out.levels p l :=
  funext fun q => Latches.get_set p q l out

theorem Latches.levels_after (e : Event) (out : Latches) : (out.after e).levels = drive out.levels e := by
  cases e with
  | cfg p l => exact Latches.levels_set p l out
  | wr p l => exact Latches.levels_set p l out
  | sleep d => rfl

theorem Latches.levels_afterAll (events : List Event) (out : Latches) :
    (Latches.afterAll events out).levels = events.foldl drive out.levels := by
  induction events generalizing out with
  | nil => rfl
  | cons e rest ih => rw [Latches.afterAll_cons, ih, Latches.levels_after, List.foldl_cons]

theorem isHigh_congr {out out' : Latches} (h : out.levels = out'.levels) (p : PinId) :
    isHigh out p = isHigh out' p := congrArg (· == some Level.high) (congrFun h p)

theorem sampleOf_congr (c : EngineConfig) {out out' : Latches} (h : out.levels = out'.levels) :
    sampleOf c out = sampleOf c out' := by
  simp only [sampleOf, isHigh_congr h]

theorem isFallingEdge_congr (c : EngineConfig) {out out' : Latches} (h : out.levels = out'.levels) (e : Event) :
    isFallingEdge c out e = isFallingEdge c out' e := by
  simp only [isFallingEdge, isHigh_congr h]

/-- The receiver sees the latches only through the levels. -/
theorem latchFrom_congr (c : EngineConfig) (events : List Event) {out out' : Latches}
    (h : out.levels = out'.levels) : latchFrom c out events = latchFrom c out' events := by
  induction events generalizing out out' with
  | nil => rfl
  | cons e rest ih =>
    have hafter : (out.after e).levels = (out'.after e).levels := by
      rw [Latches.levels_after, Latches.levels_after, h]
    simp only [latchFrom, isFallingEdge_congr c h, sampleOf_congr c h, ih hafter]

/-- Events that make no falling edge on any levels are latched as nothing. -/
theorem latchFrom_eq_nil {c : EngineConfig} {events : List Event}
    (h : ∀ e ∈ events, ∀ out, isFallingEdge c out e = false) (out : Latches) : latchFrom c out events = [] := by
  induction events generalizing out with
  | nil => rfl
  | cons e rest ih =>
    rw [latchFrom, h e List.mem_cons_self out]
    exact ih (fun d hd => h d (List.mem_cons_of_mem e hd)) _

/-- Two events that may be performed in either order. -/
def DrivesCommute (a b : Event) : Prop := ∀ levels, drive (drive levels a) b = drive (drive levels b) a

theorem drivesCommute_wr {p q : PinId} (h : p ≠ q) (l m : Level) : DrivesCommute (.wr p l) (.wr q m) :=
  fun levels => driveTo_comm h levels l m

/-- Events that commute pair by pair may be performed in any order. -/
theorem Latches.levels_afterAll_perm {a b : List Event} (hperm : a.Perm b) (hcomm : b.Pairwise DrivesCommute)
    (out : Latches) : (Latches.afterAll a out).levels = (Latches.afterAll b out).levels := by
  have hflip : b.Pairwise (flip DrivesCommute) := hcomm.imp fun h levels => (h levels).symm
  have hall : ∀ x ∈ b, ∀ y ∈ b, DrivesCommute x y := hcomm.forall_of_forall_of_flip (fun _ _ _ => rfl) hflip
  rw [Latches.levels_afterAll, Latches.levels_afterAll]
  exact (hperm.symm.foldl_eq' hall out.levels).symm

/-- Register select and the four data pins are distinct, so their writes commute. -/
theorem halfWrites_commute {c : EngineConfig} (h : c.Ok) (l : Level) (n : Nibble) :
    (Event.wr c.rs l :: nibbleEvents c n).Pairwise DrivesCommute := by
  obtain ⟨⟨-, a0, a1, a2, a3⟩, -, ⟨c1, c2, c3⟩, ⟨d2, d3⟩, e3⟩ := h.distinct
  simp [nibbleEvents, drivesCommute_wr, a0, a1, a2, a3, c1, c2, c3, d2, d3, e3]

/-- None of these writes drives enable. -/
theorem halfWrites_no_edge {c : EngineConfig} (h : c.Ok) (l : Level) (n : Nibble) :
    ∀ e ∈ Event.wr c.rs l :: nibbleEvents c n, ∀ out, isFallingEdge c out e = false := by
  obtain ⟨⟨a, -⟩, ⟨b0, b1, b2, b3⟩, -⟩ := h.distinct
  simp [nibbleEvents, isFallingEdge_wr_ne, a, b0.symm, b1.symm, b2.symm, b3.symm]

/-- Settles O53: the writes are latched as nothing themselves, and leave the same levels in any order. -/
theorem writeOrderIsInvisible : Obligations.WriteOrderIsInvisible := by
  intro c out n l writes rest hok hperm
  have hedge := halfWrites_no_edge hok l n
  have hlevels := Latches.levels_afterAll_perm hperm (halfWrites_commute hok l n) out
  rw [List.append_assoc, List.append_assoc, latchFrom_append c writes, latchFrom_append c (_ :: _),
    latchFrom_eq_nil hedge, latchFrom_eq_nil fun e he => hedge e (hperm.mem_iff.1 he), latchFrom_congr c _ hlevels]

/-! ### What a frame does to the shadow -/

theorem Shadow.frame_data {f : Frame} (h : f.rs = true) (env : Env) (x : Shadow) :
    x.frame env f = x.data env f.v := if_pos h

theorem Shadow.frame_clear (env : Env) (x : Shadow) : x.frame env ⟨false, env.k.clearDisplay⟩ = x.clear := by
  simp [Shadow.frame]

/-- Bit 7 tells the set-addresses from the other command bytes (R174). -/
theorem getLsbD_seven (v : Byte) : v.getLsbD 7 = decide (128 ≤ v.toNat) := BitVec.msb_eq_decide v

theorem Shadow.frame_setAddr {env : Env} {f : Frame} (hrs : f.rs = false) (hclear : f.v ≠ env.k.clearDisplay)
    (hbit : f.v.getLsbD 7 = true) (x : Shadow) : x.frame env f = x.setAddr env (f.v.extractLsb' 0 7) := by
  have hge : 128 ≤ f.v.toNat := of_decide_eq_true ((getLsbD_seven f.v).symm.trans hbit)
  simp only [Shadow.frame, hrs, hclear, hge, if_true, if_false, Bool.false_eq_true]
  rfl

theorem Shadow.frame_mode {env : Env} {f : Frame} (hrs : f.rs = false) (hclear : f.v ≠ env.k.clearDisplay)
    (hbit : f.v.getLsbD 7 = false) (x : Shadow) :
    x.frame env f = if isModeByte env.k f.v then x else .lost := by
  have hlt : ¬ 128 ≤ f.v.toNat := of_decide_eq_false ((getLsbD_seven f.v).symm.trans hbit)
  simp only [Shadow.frame, hrs, hclear, hlt, if_false, Bool.false_eq_true]

/-- What is lost stays lost (R178, log entry 9). -/
theorem Shadow.frame_lost (env : Env) (f : Frame) : Shadow.frame env f .lost = .lost := by
  simp only [Shadow.frame, Shadow.data, Shadow.clear, Shadow.setAddr]
  repeat' split
  all_goals rfl

theorem Shadow.setAddr_known (env : Env) (v : Byte) (ddram : List Host.Cell) (ac : BitVec 7) :
    Shadow.setAddr env (v.extractLsb' 0 7) (.known ddram ac) =
      if validAddr env (v.toNat % 128) then .known ddram (v.extractLsb' 0 7) else .lost := rfl

/-- A data frame at an implemented address stores its byte there, leaves every other cell, and steps the counter
(R175). -/
theorem Shadow.data_known {env : Env} {ddram : List Host.Cell} {ac : BitVec 7} (v : Byte)
    (hvalid : validAddr env ac.toNat = true) (hwf : Memory.wf env.blank ddram = true) :
    ∃ cells, Shadow.data env v (.known ddram ac) = .known cells (acNext env ac) ∧
      ∀ a, Memory.read env.blank a cells = if a = ac.toNat then v else Memory.read env.blank a ddram :=
  ⟨_, if_pos hvalid, fun a => Memory.read_write ac.toNat a v hwf⟩

theorem Shadow.data_invalid {env : Env} {ddram : List Host.Cell} {ac : BitVec 7} (v : Byte)
    (hinvalid : validAddr env ac.toNat = false) : Shadow.data env v (.known ddram ac) = .lost := by
  simp [Shadow.data, hinvalid]

/-! ### What an event does to the display -/

theorem Display.after_edge {c : EngineConfig} {out : Latches} {e : Event} (h : isFallingEdge c out e = true)
    (env : Env) (x : Display) : x.after env (some c) out e = x.latch env (sampleOf c out) := if_pos h

theorem Display.after_no_edge {wiring : Option EngineConfig} {out : Latches} {e : Event}
    (h : ∀ c, wiring = some c → isFallingEdge c out e = false) (env : Env) (x : Display) :
    x.after env wiring out e = x := by
  cases wiring with
  | none => rfl
  | some c => simp [Display.after, h c rfl]

theorem Display.arrive_of_no_duty {x : Display} (hclear : x.clearDuty = 0) (hpower : x.powerDuty = 0) :
    x.arrive = x := if_pos ⟨hclear, hpower⟩

theorem Display.arrive_of_duty {x : Display} (h : x.clearDuty ≠ 0 ∨ x.powerDuty ≠ 0) : x.arrive = x.lose :=
  if_neg fun ⟨hclear, hpower⟩ => h.elim (· hclear) (· hpower)

/-- A high nibble is held. -/
theorem Display.latch_high {x : Display} (h : x.half = none) (env : Env) (m : Sample) :
    x.latch env m = { x.arrive with half := some m } := by simp only [Display.latch, h]

/-- A low nibble completes the frame (R167). -/
theorem Display.latch_low {x : Display} {hi : Sample} (h : x.half = some hi) (env : Env) (m : Sample) :
    x.latch env m = x.arrive.frame env (frameOf hi m) := by simp only [Display.latch, h]

/-- A latch while the host owes the display time loses the shadow, also where it completes a frame. -/
theorem Display.latch_of_duty {x : Display} (h : x.clearDuty ≠ 0 ∨ x.powerDuty ≠ 0) (env : Env) (m : Sample) :
    (x.latch env m).shadow = .lost := by
  cases hhalf : x.half with
  | none => rw [Display.latch_high hhalf, Display.arrive_of_duty h]; rfl
  | some hi => rw [Display.latch_low hhalf, Display.arrive_of_duty h]; exact Shadow.frame_lost env _

/-- Settles O59: an edge latches a nibble, and a second nibble completes a frame, which is data, the clear, a
set-address, or one of the mode bytes. -/
theorem eventMemoryFrame : Obligations.EventMemoryFrame := by
  intro s e ddram ac hknown hwf
  refine ⟨fun hquiet => Display.after_no_edge hquiet s.env s.display, fun c hwired hedge => ?_⟩
  have hlatch : (s.perform e).display = s.display.latch s.env (sampleOf c s.out) := by
    rw [State.perform_display, hwired, Display.after_edge hedge]
  rw [hlatch]
  refine ⟨fun hduty => Display.latch_of_duty hduty _ _, fun hclear hpower => ?_⟩
  have harrive := Display.arrive_of_no_duty hclear hpower
  refine ⟨fun hhalf => by rw [Display.latch_high hhalf, harrive], fun hi hhalf => ?_⟩
  rw [Display.latch_low hhalf, harrive, Display.frame_shadow, hknown]
  refine ⟨rfl, fun hf => ?_, fun hrs hvalid => ?_, fun hrs hinvalid => ?_, fun hrs hv hbit => ?_,
    fun hrs hv hbit => ?_⟩
  · rw [hf, Shadow.frame_clear]; rfl
  · rw [Shadow.frame_data hrs]; exact Shadow.data_known _ hvalid hwf
  · rw [Shadow.frame_data hrs]; exact Shadow.data_invalid _ hinvalid
  · rw [Shadow.frame_setAddr hrs hv hbit]; exact Shadow.setAddr_known _ _ _ _
  · exact Shadow.frame_mode hrs hv hbit _

end Sys2Proof.Machine
end

section
/-! The request packets. Per layout one lemma says which bytes decode and to what (R62, R63); both round trips and the
exactness of the length (R65) follow from it. -/

namespace Sys2Proof

/-! ### CREATE packets -/

/-- The configuration that the bytes of a CREATE packet denote (R62). -/
def packetConfig (rs en : Byte) (pins : List Byte) (columns rows : Byte) : RawConfig where
  rs := some (packetPin rs)
  en := some (packetPin en)
  dataPins := some (pins.map packetPin)
  columns := some (columns.toNat : Int)
  rows := some (rows.toNat : Int)

theorem encodeInt_byte (b : Byte) : encodeInt (some (b.toNat : Int)) = b := by simp [encodeInt]

theorem encodeCreate_packetConfig (rs en : Byte) (pins : List Byte) (columns rows : Byte) :
    encodeCreate (packetConfig rs en pins columns rows) =
      0x00 :: rs :: en :: BitVec.ofNat 8 pins.length :: (pins ++ [columns, rows]) := by
  simp [encodeCreate, packetConfig, encodePin, encodeInt_byte, pinByte_packetPin, Function.comp_def]

theorem pinField_iff {x : Option PinId} : pinField x = true ↔ ∃ b : Byte, x = some (packetPin b) := by
  constructor
  · intro h
    cases x with
    | none => cases h
    | some p => exact ⟨pinByte p, by rw [packetPin_pinByte (of_decide_eq_true h)]⟩
  · rintro ⟨b, rfl⟩
    exact decide_eq_true b.isLt

theorem byteField_iff {x : Option Int} : byteField x = true ↔ ∃ b : Byte, x = some (b.toNat : Int) := by
  constructor
  · intro h
    cases x with
    | none => cases h
    | some v =>
      simp only [byteField, Bool.and_eq_true, decide_eq_true_eq] at h
      refine ⟨BitVec.ofNat 8 v.toNat, congrArg some ?_⟩
      rw [BitVec.toNat_ofNat]
      omega
  · rintro ⟨b, rfl⟩
    have hb := b.isLt
    simp only [byteField, Bool.and_eq_true, decide_eq_true_eq]
    omega

/-- The data pins that fit a packet are those its pin bytes name. -/
theorem pinBytes_iff {pins : List PinId} :
    (pins.all fun p => decide (p.number < 256)) = true ↔ ∃ bytes : List Byte, pins = bytes.map packetPin := by
  constructor
  · intro h
    have hinverse : ∀ p ∈ pins, packetPin (pinByte p) = p := fun p hp =>
      packetPin_pinByte (of_decide_eq_true (List.all_eq_true.1 h p hp))
    refine ⟨pins.map pinByte, ?_⟩
    rw [List.map_map, List.map_congr_left (f := packetPin ∘ pinByte) (g := id) hinverse, List.map_id]
  · rintro ⟨bytes, rfl⟩
    rw [List.all_map, List.all_eq_true]
    exact fun b _ => decide_eq_true b.isLt

/-- A configuration is one a packet can carry exactly when it is one some packet denotes. -/
theorem RawConfig.wellFormed_iff {config : RawConfig} :
    config.wellFormed = true ↔ ∃ rs en pins columns rows, pins.length < 256 ∧
      config = packetConfig rs en pins columns rows := by
  obtain ⟨rs, en, dataPins, columns, rows⟩ := config
  cases dataPins with
  | none => simp [RawConfig.wellFormed, packetConfig]
  | some ps =>
    simp only [RawConfig.wellFormed, Bool.and_eq_true, pinField_iff, byteField_iff, pinBytes_iff, decide_eq_true_eq,
      packetConfig, RawConfig.mk.injEq, Option.some.injEq]
    constructor
    · rintro ⟨⟨⟨⟨⟨rs, rfl⟩, en, rfl⟩, columns, rfl⟩, rows, rfl⟩, hlen, pins, rfl⟩
      exact ⟨rs, en, pins, columns, rows, by simpa using hlen, rfl, rfl, rfl, rfl, rfl⟩
    · rintro ⟨rs, en, pins, columns, rows, hlen, rfl, rfl, rfl, rfl, rfl⟩
      exact ⟨⟨⟨⟨⟨rs, rfl⟩, en, rfl⟩, columns, rfl⟩, rows, rfl⟩, by simpa using hlen, pins, rfl⟩

/-- CREATE: two pins, a count, that many pins, two geometry bytes and nothing more (R62). -/
theorem decodeCreate_ok_iff {rest : List Byte} {i : Instr} :
    decodeCreate rest = .ok i ↔ ∃ rs en pins columns rows, pins.length < 256 ∧
      rest = rs :: en :: BitVec.ofNat 8 pins.length :: (pins ++ [columns, rows]) ∧
      i = .create (packetConfig rs en pins columns rows) := by
  constructor
  · intro h
    unfold decodeCreate at h
    split at h
    · next rs en n tail =>
      split at h
      · next columns rows hdrop =>
        cases h
        have hn := n.isLt
        have hlen := congrArg List.length hdrop
        simp only [List.length_drop, List.length_cons, List.length_nil] at hlen
        have htake : (tail.take n.toNat).length = n.toNat := by rw [List.length_take]; omega
        refine ⟨rs, en, tail.take n.toNat, columns, rows, by omega, ?_, rfl⟩
        rw [htake, BitVec.ofNat_toNat, BitVec.setWidth_eq, ← hdrop, List.take_append_drop]
      · cases h
    · cases h
  · rintro ⟨rs, en, pins, columns, rows, hlen, rfl, rfl⟩
    have hn : (BitVec.ofNat 8 pins.length).toNat = pins.length := Nat.mod_eq_of_lt hlen
    simp [decodeCreate, hn, packetConfig]

/-! ### PRINT and SETCURSOR packets -/

/-- PRINT: a count of 16 bits, that many characters of 32 bits and nothing more (R62). -/
theorem decodePrint_ok_iff {rest : List Byte} {i : Instr} :
    decodePrint rest = .ok i ↔ ∃ text, text.length < 65536 ∧ (∀ c ∈ text, c < 4294967296) ∧
      rest = byteOf 0 text.length :: byteOf 1 text.length :: text.flatMap encodeChar ∧ i = .print text := by
  constructor
  · intro h
    unfold decodePrint at h
    split at h
    · next lo hi chars =>
      split at h
      · next text hchars =>
        obtain ⟨hbytes, hcodes⟩ := decodeChars_some hchars
        split at h
        · next hlen =>
          cases h
          obtain ⟨hlo, hhi⟩ := bytes_le16 lo hi
          exact ⟨text, hlen ▸ le16_lt lo hi, hcodes, by rw [hlen, hlo, hhi, hbytes], rfl⟩
        · cases h
      · cases h
    · cases h
  · rintro ⟨text, hlen, hcodes, rfl, rfl⟩
    simp only [decodePrint, decodeChars_encode text hcodes, le16_bytes hlen, if_true]

/-- SETCURSOR: two fields of 16 bits and nothing more (R62). -/
theorem decodeSetcursor_ok_iff {rest : List Byte} {i : Instr} :
    decodeSetcursor rest = .ok i ↔ ∃ c0 c1 r0 r1, rest = [c0, c1, r0, r1] ∧
      i = .setcursor (le16 c0 c1) (sext16 (le16 r0 r1)) := by
  constructor
  · intro h
    unfold decodeSetcursor at h
    split at h
    · next c0 c1 r0 r1 => cases h; exact ⟨c0, c1, r0, r1, rfl, rfl⟩
    · cases h
  · rintro ⟨c0, c1, r0, r1, rfl, rfl⟩
    rfl

theorem decodeClear_ok_iff {rest : List Byte} {i : Instr} : decodeClear rest = .ok i ↔ rest = [] ∧ i = .clear := by
  cases rest <;> simp [decodeClear, eq_comm]

/-- A sign-extended field of 16 bits lies in the signed range (R14). -/
theorem sext16_range {n : Nat} (h : n < 65536) : -32768 ≤ sext16 n ∧ sext16 n < 32768 := by
  unfold sext16
  split <;> omega

/-! ### Round trips of the packets -/

/-- The decoder inverts the encoder on every request packet (R62 to R64). -/
theorem decodePacket_encode {i : Instr} {bytes : List Byte} (hwf : WellFormed i)
    (henc : encode i = some (.packet bytes)) : decodePacket bytes = .ok i := by
  cases i <;> simp only [encode, Option.some.injEq, Code.packet.injEq, reduceCtorEq] at henc <;> subst henc
  case create config =>
    obtain ⟨rs, en, pins, columns, rows, hlen, rfl⟩ := RawConfig.wellFormed_iff.1 hwf
    rw [encodeCreate_packetConfig, decodePacket_create]
    exact decodeCreate_ok_iff.2 ⟨rs, en, pins, columns, rows, hlen, rfl, rfl⟩
  case clear => rfl
  case print text =>
    simp only [WellFormed, Instr.wellFormed, Bool.and_eq_true, decide_eq_true_eq, List.all_eq_true] at hwf
    obtain ⟨hlen, hcodes⟩ := hwf
    exact (decodePacket_print _).trans (decodePrint_ok_iff.2 ⟨text, hlen, hcodes, rfl, rfl⟩)
  case setcursor col row =>
    simp only [WellFormed, Instr.wellFormed, Bool.and_eq_true, decide_eq_true_eq] at hwf
    obtain ⟨⟨hcol, hlow⟩, hhigh⟩ := hwf
    rw [decodePacket_setcursor, decodeSetcursor, le16_bytes hcol, le16_bytes (field16_lt row),
      sext16_field16 hlow hhigh]
  case reservedRequest opcode rest => exact decodePacket_reserved (of_decide_eq_true hwf) rest

/-- The encoder inverts the decoder on every accepted packet (R62 to R65). -/
theorem encode_of_decodePacket {bytes : List Byte} {i : Instr} (h : decodePacket bytes = .ok i) :
    WellFormed i ∧ encode i = some (.packet bytes) := by
  cases bytes with
  | nil => cases h
  | cons opcode rest =>
    rcases opcode_cases opcode with rfl | rfl | rfl | rfl | h4
    · rw [decodePacket_create] at h
      obtain ⟨rs, en, pins, columns, rows, hlen, rfl, rfl⟩ := decodeCreate_ok_iff.1 h
      refine ⟨RawConfig.wellFormed_iff.2 ⟨rs, en, pins, columns, rows, hlen, rfl⟩, ?_⟩
      rw [encode, encodeCreate_packetConfig]
    · rw [decodePacket_clear] at h
      obtain ⟨rfl, rfl⟩ := decodeClear_ok_iff.1 h
      exact ⟨rfl, rfl⟩
    · rw [decodePacket_print] at h
      obtain ⟨text, hlen, hcodes, rfl, rfl⟩ := decodePrint_ok_iff.1 h
      refine ⟨?_, rfl⟩
      simpa only [WellFormed, Instr.wellFormed, Bool.and_eq_true, decide_eq_true_eq, List.all_eq_true] using
        And.intro hlen hcodes
    · rw [decodePacket_setcursor] at h
      obtain ⟨c0, c1, r0, r1, rfl, rfl⟩ := decodeSetcursor_ok_iff.1 h
      obtain ⟨hlow, hhigh⟩ := sext16_range (le16_lt r0 r1)
      obtain ⟨hc0, hc1⟩ := bytes_le16 c0 c1
      obtain ⟨hr0, hr1⟩ := bytes_le16 r0 r1
      refine ⟨?_, by rw [encode, field16_sext16 (le16_lt r0 r1), hc0, hc1, hr0, hr1]⟩
      simpa only [WellFormed, Instr.wellFormed, Bool.and_eq_true, decide_eq_true_eq] using
        And.intro (And.intro (le16_lt c0 c1) hlow) hhigh
    · rw [decodePacket_reserved h4] at h
      cases h
      exact ⟨decide_eq_true h4, rfl⟩

/-- Settles O1: the decoder inverts the encoder, layout by layout. -/
theorem requestPacketsRoundTrip : Obligations.RequestPacketsRoundTrip :=
  fun _ _ => decodePacket_encode

/-- Settles O2: what a packet decodes to is well formed and encodes as the packet. -/
theorem acceptedPacketsReencode : Obligations.AcceptedPacketsReencode :=
  fun _ _ => encode_of_decodePacket

/-! ### The length of a packet -/

theorem decodeCreate_no_extension {rest extra : List Byte} {i j : Instr} (h : decodeCreate rest = .ok i)
    (hext : decodeCreate (rest ++ extra) = .ok j) : extra = [] := by
  obtain ⟨rs, en, pins, columns, rows, hlen, rfl, -⟩ := decodeCreate_ok_iff.1 h
  obtain ⟨rs', en', pins', columns', rows', hlen', heq, -⟩ := decodeCreate_ok_iff.1 hext
  simp only [List.cons_append, List.cons.injEq] at heq
  obtain ⟨-, -, hcount, htail⟩ := heq
  have hpins : pins.length = pins'.length := by
    have hcount' := congrArg BitVec.toNat hcount
    rwa [BitVec.toNat_ofNat, BitVec.toNat_ofNat, Nat.mod_eq_of_lt hlen, Nat.mod_eq_of_lt hlen'] at hcount'
  have htotal := congrArg List.length htail
  simp only [List.length_append, List.length_cons, List.length_nil] at htotal
  exact List.eq_nil_of_length_eq_zero (by omega)

theorem decodePrint_no_extension {rest extra : List Byte} {i j : Instr} (h : decodePrint rest = .ok i)
    (hext : decodePrint (rest ++ extra) = .ok j) : extra = [] := by
  obtain ⟨text, hlen, -, rfl, -⟩ := decodePrint_ok_iff.1 h
  obtain ⟨text', hlen', -, heq, -⟩ := decodePrint_ok_iff.1 hext
  simp only [List.cons_append, List.cons.injEq] at heq
  obtain ⟨hlo, hhi, htail⟩ := heq
  have htext : text.length = text'.length := by
    rw [← le16_bytes hlen, hlo, hhi, le16_bytes hlen']
  have htotal := congrArg List.length htail
  simp only [List.length_append, flatMap_encodeChar_length] at htotal
  exact List.eq_nil_of_length_eq_zero (by omega)

theorem decodeSetcursor_no_extension {rest extra : List Byte} {i j : Instr} (h : decodeSetcursor rest = .ok i)
    (hext : decodeSetcursor (rest ++ extra) = .ok j) : extra = [] := by
  obtain ⟨c0, c1, r0, r1, rfl, -⟩ := decodeSetcursor_ok_iff.1 h
  obtain ⟨c0', c1', r0', r1', heq, -⟩ := decodeSetcursor_ok_iff.1 hext
  simpa using congrArg List.length heq

/-- No accepted packet with an assigned opcode is a proper beginning of another (R65). -/
theorem decodePacket_no_extension {opcode : Byte} {rest extra : List Byte} {i j : Instr} (hop : opcode.toNat < 4)
    (h : decodePacket (opcode :: rest) = .ok i) (hext : decodePacket (opcode :: (rest ++ extra)) = .ok j) :
    extra = [] := by
  rcases opcode_cases opcode with rfl | rfl | rfl | rfl | h4
  · rw [decodePacket_create] at h hext
    exact decodeCreate_no_extension h hext
  · rw [decodePacket_clear] at h hext
    exact (List.append_eq_nil_iff.1 (decodeClear_ok_iff.1 hext).1).2
  · rw [decodePacket_print] at h hext
    exact decodePrint_no_extension h hext
  · rw [decodePacket_setcursor] at h hext
    exact decodeSetcursor_no_extension h hext
  · omega

/-- A packet that is not accepted is malformed. -/
theorem decodePacket_malformed {bytes : List Byte} (h : ∀ i, decodePacket bytes ≠ .ok i) :
    decodePacket bytes = .malformed := by
  cases hd : decodePacket bytes with
  | ok i => exact absurd hd (h i)
  | malformed => rfl
  | unknownFrame => exact absurd hd (Machine.decodePacket_ne_unknownFrame bytes)

/-- Settles O6: an accepted packet is no proper beginning of another, so what is longer or shorter is malformed. -/
theorem packetLengthIsExact : Obligations.PacketLengthIsExact := by
  intro opcode rest i hop h
  refine ⟨fun extra hne => ?_, fun k hk => ?_⟩
  · exact decodePacket_malformed fun j hj => hne (decodePacket_no_extension hop h hj)
  · cases k with
    | zero => rfl
    | succ k =>
      rw [List.take_succ_cons]
      refine decodePacket_malformed fun j hj => ?_
      have hcut : rest.drop k = [] :=
        decodePacket_no_extension hop hj (by rw [List.take_append_drop]; exact h)
      rw [List.length_cons] at hk
      rw [List.drop_eq_nil_iff] at hcut
      omega

end Sys2Proof
end

section
/-! The bus frames: the decoder's tests in their order (R82), both round trips, and a few words of the spec. -/

namespace Sys2Proof

/-! ### From the instruction to its word and back -/

theorem decodeFrame_data {code : Nat} (h : code < 256) :
    decodeFrame (BitVec.ofNat 9 (0x100 + code)) = .ok (.data code) := by
  have hw : (BitVec.ofNat 9 (0x100 + code)).toNat = 256 + code := Nat.mod_eq_of_lt (by omega)
  have hrs : (256 + code) / 256 = 1 := by omega
  have hv : (256 + code) % 256 = code := by omega
  simp only [decodeFrame, hw, hrs, hv, if_true]

theorem decodeFrame_setddramaddr {addr : Nat} (h : addr < 128) :
    decodeFrame (BitVec.ofNat 9 (0x080 + addr)) = .ok (.setddramaddr addr) := by
  have hw : (BitVec.ofNat 9 (0x080 + addr)).toNat = 128 + addr := Nat.mod_eq_of_lt (by omega)
  have hrs : (128 + addr) / 256 ≠ 1 := by omega
  have hv : (128 + addr) % 256 = 128 + addr := by omega
  have hbit : (128 + addr) / 128 = 1 := by omega
  have haddr : (128 + addr) % 128 = addr := by omega
  simp only [decodeFrame, hw, hrs, hv, hbit, haddr, if_true, if_false]

/-- The decoder inverts the encoder on every frame (R82). -/
theorem decodeFrame_encode {i : Instr} {w : BitVec 9} (hwf : WellFormed i)
    (henc : encode i = some (.frame w)) : decodeFrame w = .ok i := by
  cases i <;> simp only [encode, Option.some.injEq, Code.frame.injEq, reduceCtorEq] at henc <;> subst henc
  case setddramaddr addr => exact decodeFrame_setddramaddr (of_decide_eq_true hwf)
  case data code => exact decodeFrame_data (of_decide_eq_true hwf)
  case returnhome x => cases x <;> rfl
  case cursorshift s r xx => clear hwf; revert s r xx; decide
  case setcgramaddr addr => clear hwf; revert addr; decide
  case rawInit1 | rawInit2 | displaycontrol | functionset | entrymodeset | cleardisplay => rfl

/-! ### From the word to its instruction and back -/

theorem toNat_decide_odd (n : Nat) : (decide (n % 2 = 1)).toNat = n % 2 := by
  rcases Nat.mod_two_eq_zero_or_one n with h | h <;> simp [h]

/-- The encoder inverts the decoder on every command byte with bit 7 clear: the patterns tested one after the other
are those of the table's rows (R82). -/
theorem encode_of_decodeCommand {v : Nat} {i : Instr} (h : decodeCommand v = .ok i) :
    WellFormed i ∧ encode i = some (.frame (BitVec.ofNat 9 v)) := by
  unfold decodeCommand at h
  -- the six bytes the engine emits (R67)
  iterate 6
    split at h
    · next hv => subst hv; cases h; exact ⟨rfl, rfl⟩
  split at h
  · next hclass =>
    cases h
    have hv : 0x002 + v % 2 = v := by omega
    exact ⟨rfl, by rw [encode, toNat_decide_odd, hv]⟩
  split at h
  · next hclass =>
    cases h
    have hv : 0x010 + 8 * (v / 8 % 2) + 4 * (v / 4 % 2) + v % 2 ^ 2 = v := by omega
    exact ⟨rfl, by rw [encode, toNat_decide_odd, toNat_decide_odd, BitVec.toNat_ofNat, hv]⟩
  split at h
  · next hclass =>
    cases h
    have hv : 0x040 + v % 2 ^ 6 = v := by omega
    exact ⟨rfl, by rw [encode, BitVec.toNat_ofNat, hv]⟩
  · cases h

/-- The encoder inverts the decoder on every accepted frame (R82). -/
theorem encode_of_decodeFrame {w : BitVec 9} {i : Instr} (h : decodeFrame w = .ok i) :
    WellFormed i ∧ encode i = some (.frame w) := by
  have hw := w.isLt
  have hword {n : Nat} (hn : n = w.toNat) : some (Code.frame (BitVec.ofNat 9 n)) = some (.frame w) := by
    rw [hn, BitVec.ofNat_toNat, BitVec.setWidth_eq]
  unfold decodeFrame at h
  dsimp only at h
  split at h
  · next hrs =>
    cases h
    exact ⟨decide_eq_true (by omega), hword (by omega)⟩
  split at h
  · next hrs hbit =>
    cases h
    exact ⟨decide_eq_true (by omega), hword (by omega)⟩
  · next hrs hbit =>
    obtain ⟨hwf, henc⟩ := encode_of_decodeCommand h
    exact ⟨hwf, henc.trans (hword (by omega))⟩

/-- Settles O3: the decoder inverts the encoder, frame by frame. -/
theorem busFramesRoundTrip : Obligations.BusFramesRoundTrip :=
  fun _ _ => decodeFrame_encode

/-- Settles O4: what a word decodes to is well formed and has that word. -/
theorem acceptedFramesReencode : Obligations.AcceptedFramesReencode :=
  fun _ _ => encode_of_decodeFrame

/-- Settles O5: each of these finitely many words is read by evaluation. -/
theorem specWordsDecode : Obligations.SpecWordsDecode := by
  unfold Obligations.SpecWordsDecode
  decide

end Sys2Proof
end

section
/-! What becomes of the decoded packets and frames: the refused ones, the frames called in place, CREATE to its end, and
which frames the receiver reads of each request. -/

namespace Sys2Proof.Machine

open Sys2Proof.Statements

/-! ### Refused packets -/

theorem step_malformed {s : State} {bytes : List Byte} {moves : List HostMove} (hp : s.pending = [])
    (hh : s.host = .packet bytes :: moves) (hd : decodePacket bytes = .malformed) :
    step s = .next ((s.issue false moves).raise .malformedRequest) := by
  simp [step, State.fetch, State.fetchWith, hp, hh, hd]

/-- Settles O7: the packet is issued as a request, and the refusal of an idle engine only delivers its result. -/
theorem malformedPacketRefused : Obligations.MalformedPacketRefused := by
  intro s bytes moves hs hh hd
  have hidle : (s.issue false moves).Idle := hs
  rw [step_malformed hs.1 hh hd, State.raise_of_idle hidle, State.issue_eq_issued]
  rfl

/-- Settles O8: the decoder keeps the bytes of a reserved packet, and an idle engine only delivers the refusal. -/
theorem reservedOpcodeRefused : Obligations.ReservedOpcodeRefused := by
  intro s opcode rest hs hop
  refine ⟨decodePacket_reserved hop rest, ?_⟩
  calc exec (.reservedRequest opcode rest) s = .next (s.raise (.unknownRequest opcode)) := State.whenIdle_idle hs.1 _
    _ = .next (s.deliver (.unknownRequest opcode)) := congrArg Host.Outcome.next (State.raise_of_idle hs _)

/-- Settles O39: no state is asked for anything. -/
theorem neverEmittedFramesStop : Obligations.NeverEmittedFramesStop :=
  fun _ => ⟨fun _ => rfl, fun _ _ _ => rfl, fun _ => rfl⟩

/-! ### Frames called in place -/

/-- An instruction that calls one transfer with the configuration in force (R72). -/
theorem calls_write8 {s : State} {i : Instr} {c : EngineConfig} {v : Byte} {rsFlag : Bool} {settle : Nat}
    {initDelay : Option Nat} (hwired : s.wiring = some c)
    (hexec : exec i s = s.callWith fun c => write8Events c v rsFlag settle initDelay) :
    Calls s i (write8Events c v rsFlag settle initDelay) :=
  calls_of_callWith hexec hwired (write8Events_ne _ _ _ _ _) (write8Events_accepted _ _ _ _ _ _)

/-- Settles O37: each of the six frames is the call of its one transfer. -/
theorem fixedFramesComplete : Obligations.FixedFramesComplete :=
  fun _ _ hwired => ⟨calls_write8 hwired rfl, calls_write8 hwired rfl, fun _ _ => rfl, calls_write8 hwired rfl,
    calls_write8 hwired rfl, calls_write8 hwired rfl, calls_write8 hwired rfl⟩

/-- The byte of a character is its code mod 256 (R14, R81). -/
theorem trunc8_eq_ofNat_mod (n : Nat) : trunc8 n = BitVec.ofNat 8 (n % 256) := by
  apply BitVec.eq_of_toNat_eq
  simp [trunc8]

/-- Settles O38: the two frames with an operand are each the call of one transfer. -/
theorem operandFramesComplete : Obligations.OperandFramesComplete := by
  refine fun s c hwired => ⟨fun addr => calls_write8 hwired rfl, fun code => ?_⟩
  rw [← trunc8_eq_ofNat_mod]
  exact calls_write8 hwired rfl

/-! ### The byte of a set-DDRAM-address -/

theorem setDdramByte_eq {k : Consts} (hk : k.setDdramAddr = 0x80) (addr : Nat) :
    setDdramByte k addr = 0x80 ||| BitVec.ofNat 8 addr := by
  rw [setDdramByte, hk, trunc8, BitVec.ofNat_or]
  rfl

/-- Under the bit 7 of the constant the address's own bit 7 is not seen, and the bits above are cut (R123). -/
theorem setBit7_or_mod (addr : Nat) :
    (0x80 : Byte) ||| BitVec.ofNat 8 addr = 0x80 ||| BitVec.ofNat 8 (addr % 2 ^ 7) := by
  apply BitVec.eq_of_getLsbD_eq
  intro i hi
  simp only [BitVec.getLsbD_or, BitVec.getLsbD_ofNat, Nat.testBit_mod_two_pow]
  by_cases hlow : i < 7
  · simp [hlow]
  · obtain rfl : i = 7 := by omega
    rfl

/-- Settles O31: the constant is bit 7, which the low seven bits of an address do not touch. -/
theorem setCursorByte : Obligations.SetCursorByte := by
  intro k addr hk
  have hbyte := setDdramByte_eq hk addr
  refine ⟨hbyte.trans (setBit7_or_mod addr), fun haddr => ?_⟩
  have hor : 2 ^ 7 * 1 + addr = 2 ^ 7 * 1 ||| addr := Nat.two_pow_add_eq_or_of_lt (by omega) 1
  rw [hbyte, BitVec.toNat_or, BitVec.toNat_ofNat, Nat.mod_eq_of_lt (by omega)]
  exact hor.symm

/-! ### CREATE -/

theorem createEvents_eq_createList (env : Env) (c : EngineConfig) : createEvents env c = createList env.k c := by
  simp only [createEvents, initEvents, createList, List.append_assoc]
  rfl

/-- Settles O19: an accepted CREATE loads its events, which drain one a step, and the last one completes it. -/
theorem createCompletes : Obligations.CreateCompletes := by
  intro s config c hs hu hc hpins
  rw [← createEvents_eq_createList]
  have hload := State.accept_of_ne (createEvents_ne s.env c) (.create c) s
  have hexec : exec (.create config) s = .next (s.accept (.create c) (createEvents s.env c)) := by
    simp [exec, execCreate, State.whenIdle, hs.1, hu, hc]
  have hrun := run_accept (.create c) hs.1 (createEvents_accepted hpins)
  rw [hload] at hexec hrun
  refine ⟨hexec, hrun.trans ?_⟩
  rw [State.settle_create (State.performAll_begun_pending _ _ hs.1) (State.performAll_inFlight _ _)]
  simp only [State.performAll_out, State.performAll_pending, State.performAll_printRow, State.performAll_trace,
    State.performAll_host, State.performAll_results, State.performAll_env, hs.2]

/-! ### The frames of an event list -/

/-- The two samples of a frame, high nibble first (R41, R167). -/
def Frame.samples (f : Frame) : List Sample := [⟨f.rs, highNibble f.v⟩, ⟨f.rs, lowNibble f.v⟩]

theorem pairFrames_samples (fs : List Frame) : pairFrames (fs.flatMap Frame.samples) = fs := by
  induction fs with
  | nil => rfl
  | cons f rest ih =>
    simp only [List.flatMap_cons, Frame.samples, List.cons_append, List.nil_append, pairFrames, frameOf,
      joinNibbles_halves]
    rw [ih]

/-- From any levels with enable not HIGH the receiver latches exactly the frames `fs`, and enable is not left HIGH. -/
def Sends (c : EngineConfig) (events : List Event) (fs : List Frame) : Prop :=
  ∀ out : Latches, out.get c.en ≠ some .high →
    latchFrom c out events = fs.flatMap Frame.samples ∧ (Latches.afterAll events out).get c.en ≠ some .high

/-- What is sent is what the observer reads (R167). -/
theorem Sends.framesFrom_eq {c : EngineConfig} {events : List Event} {fs : List Frame} (h : Sends c events fs)
    {out : Latches} (hen : out.get c.en ≠ some .high) : framesFrom c out events = fs := by
  rw [framesFrom, (h out hen).1, pairFrames_samples]

theorem sends_nil (c : EngineConfig) : Sends c [] [] := fun _ hen => ⟨rfl, hen⟩

theorem Sends.append {c : EngineConfig} {a b : List Event} {fs gs : List Frame} (ha : Sends c a fs)
    (hb : Sends c b gs) : Sends c (a ++ b) (fs ++ gs) := by
  intro out hen
  obtain ⟨hlatchA, hmid⟩ := ha out hen
  obtain ⟨hlatchB, hend⟩ := hb _ hmid
  rw [latchFrom_append, hlatchA, hlatchB, List.flatMap_append, Latches.afterAll_append]
  exact ⟨rfl, hend⟩

/-- A transfer sends its one frame. -/
theorem sends_write8 {c : EngineConfig} (hok : c.Ok) (v : Byte) (rsFlag : Bool) (settle : Nat)
    (initDelay : Option Nat) : Sends c (write8Events c v rsFlag settle initDelay) [⟨rsFlag, v⟩] := by
  intro out hen
  rw [latchFrom_write8 hok v rsFlag settle initDelay hen, write8Events_enable]
  exact ⟨rfl, by decide⟩

/-- Configuring pins LOW sends nothing (R94). -/
theorem sends_cfgs (c : EngineConfig) (pins : List PinId) :
    Sends c (pins.map fun p => Event.cfg p .low) [] := by
  induction pins with
  | nil => exact sends_nil c
  | cons p rest ih =>
    refine Sends.append (a := [.cfg p .low]) (fs := []) (fun out hen => ⟨?_, ?_⟩) ih
    · simp [latchFrom, isFallingEdge, isHigh, hen]
    · rw [Latches.afterAll_cons, Latches.afterAll_nil, Latches.after_cfg, Latches.get_set]
      split
      · decide
      · exact hen

/-! ### The frames of the requests -/

theorem sends_clear {c : EngineConfig} (hok : c.Ok) (env : Env) :
    Sends c (clearEvents env c) [⟨false, env.k.clearDisplay⟩] := sends_write8 hok _ _ _ _

theorem sends_setcursor {c : EngineConfig} (hok : c.Ok) (env : Env) (col row : Nat) :
    Sends c (setcursorEvents env c col row) [⟨false, setDdramByte env.k (cursorAddr c.rows col row)⟩] :=
  sends_write8 hok _ _ _ _

/-- A CREATE sends the six bytes of its steps 2 to 7 (R95, R168). -/
theorem sends_create {c : EngineConfig} (hok : c.Ok) (env : Env) :
    Sends c (createEvents env c)
      [⟨false, 0x33⟩, ⟨false, 0x32⟩, ⟨false, displayControlByte env.k⟩, ⟨false, functionSetByte env.k⟩,
        ⟨false, entryModeByte env.k⟩, ⟨false, env.k.clearDisplay⟩] :=
  (sends_cfgs c c.pins).append <| ((((((sends_write8 hok _ _ _ _).append (sends_write8 hok _ _ _ _)).append
    (sends_write8 hok _ _ _ _)).append (sends_write8 hok _ _ _ _)).append (sends_write8 hok _ _ _ _)).append
    (sends_clear hok env))

/-! ### Only the frames of R69 -/

/-- The events send only frames of R69. -/
def SendsEngineFrames (c : EngineConfig) (events : List Event) : Prop :=
  ∃ fs, Sends c events fs ∧ ∀ f ∈ fs, EngineFrame f

/-- With the default constants a set-DDRAM-address byte is 0x80 or above (R69). -/
theorem engineFrame_setDdram {k : Consts} (hk : k.setDdramAddr = 0x80) (addr : Nat) :
    EngineFrame ⟨false, setDdramByte k addr⟩ := by
  have hbit : (setDdramByte k addr).getLsbD 7 = true := by
    rw [setDdramByte_eq hk, BitVec.getLsbD_or]
    exact Bool.or_eq_true_iff.2 (.inl (by decide))
  rw [getLsbD_seven, decide_eq_true_eq] at hbit
  exact .inr (.inr hbit)

theorem sendsEngineFrames_setcursor {c : EngineConfig} (hok : c.Ok) {env : Env} (hk : env.k.setDdramAddr = 0x80)
    (col row : Nat) : SendsEngineFrames c (setcursorEvents env c col row) :=
  ⟨_, sends_setcursor hok env col row, List.forall_mem_singleton.2 (engineFrame_setDdram hk _)⟩

theorem SendsEngineFrames.append {c : EngineConfig} {a b : List Event} (ha : SendsEngineFrames c a)
    (hb : SendsEngineFrames c b) : SendsEngineFrames c (a ++ b) := by
  obtain ⟨fs, hfs, hengine⟩ := ha
  obtain ⟨gs, hgs, hengine'⟩ := hb
  exact ⟨fs ++ gs, hfs.append hgs, List.forall_mem_append.2 ⟨hengine, hengine'⟩⟩

theorem sendsEngineFrames_nil (c : EngineConfig) : SendsEngineFrames c [] :=
  ⟨[], sends_nil c, List.forall_mem_nil _⟩

/-- A text sends data frames and, for its newlines, set-DDRAM-address frames (R111). -/
theorem sendsEngineFrames_print {c : EngineConfig} (hok : c.Ok) {env : Env} (hk : env.k.setDdramAddr = 0x80)
    (row : Nat) (text : List Nat) : SendsEngineFrames c (printEvents env c row text) := by
  induction text generalizing row with
  | nil => exact sendsEngineFrames_nil c
  | cons code rest ih =>
    rw [printEvents]
    split
    · exact (sendsEngineFrames_setcursor hok hk 0 (row + 1)).append (ih (row + 1))
    · have hdata : SendsEngineFrames c (dataEvents c code) :=
        ⟨_, sends_write8 hok _ _ _ _, List.forall_mem_singleton.2 (.inl rfl)⟩
      exact hdata.append (ih row)

/-- A CREATE sends its six command bytes, or none where the platform rejects a pin (R94, R98). -/
theorem sendsEngineFrames_planCreate {c : EngineConfig} (hok : c.Ok) {env : Env} (hdefault : ConstantsDefault env) :
    SendsEngineFrames c (planCreate env c).events := by
  unfold planCreate
  split
  · refine ⟨_, sends_create hok env, ?_⟩
    rw [hdefault]
    unfold EngineFrame
    decide
  · exact ⟨[], sends_cfgs c _, List.forall_mem_nil _⟩

theorem planCreate_creates (env : Env) (c : EngineConfig) : (planCreate env c).creates = some c := by
  unfold planCreate
  split <;> rfl

/-- Branch by branch of the big-step function, the configuration being CREATE's own or the one in force. -/
theorem sendsEngineFrames_plan {c : EngineConfig} (hok : c.Ok) {env : Env} (hdefault : ConstantsDefault env)
    {phase : Phase} {cfg : Option EngineConfig} {r : Request}
    (hconfig : (plan env phase cfg r).creates = some c ∨ ((plan env phase cfg r).creates = none ∧ cfg = some c)) :
    SendsEngineFrames c (plan env phase cfg r).events := by
  have hk : env.k.setDdramAddr = 0x80 := by rw [hdefault]; rfl
  revert hconfig
  fun_cases plan env phase cfg r <;> intro hconfig
  case case3 config created _ =>
    rw [planCreate_creates] at hconfig
    obtain ⟨⟨⟩⟩ | ⟨⟨⟩, -⟩ := hconfig
    exact sendsEngineFrames_planCreate hok hdefault
  case case4 inForce =>
    obtain ⟨⟨⟩⟩ | ⟨-, ⟨⟩⟩ := hconfig
    refine ⟨_, sends_clear hok env, List.forall_mem_singleton.2 (.inr (.inl ?_))⟩
    rw [hdefault]
    decide
  case case5 text inForce =>
    obtain ⟨⟨⟩⟩ | ⟨-, ⟨⟩⟩ := hconfig
    exact sendsEngineFrames_print hok hk 0 text
  case case7 col row inForce _ =>
    obtain ⟨⟨⟩⟩ | ⟨-, ⟨⟩⟩ := hconfig
    exact sendsEngineFrames_setcursor hok hk col row.toNat
  all_goals exact sendsEngineFrames_nil c

/-- Settles O50: the observer reads exactly the frames the request sends, and those are of R69. -/
theorem onlyEngineFramesAreSent : Obligations.OnlyEngineFramesAreSent := by
  intro s r c hdefault hok hen hconfig f hf
  obtain ⟨fs, hsends, hengine⟩ := sendsEngineFrames_plan hok hdefault hconfig
  rw [hsends.framesFrom_eq hen] at hf
  exact hengine f hf

end Sys2Proof.Machine
end

section
/-! CREATE: what its checks accept (R93), what an idle engine answers it, where it stops at a rejected pin (R94), and
the counts of its trace (R97); then the refusals of a READY engine and the frames of each request (R168). -/

namespace Sys2Proof.Machine

open Sys2Proof.Statements

/-! ### The checks of CREATE -/

theorem allDistinct_iff_nodup (pins : List PinId) : allDistinct pins = true ↔ pins.Nodup := by
  induction pins with
  | nil => simp [allDistinct]
  | cons p rest ih => simp [allDistinct, ih]

/-- V4 and V5: the legal row counts are those a `RowCount` holds. -/
theorem RowCount.ofInt_eq_some_iff {rows : Int} {n : RowCount} :
    RowCount.ofInt rows = some n ↔ rows = (n.toNat : Int) := by
  constructor
  · fun_cases RowCount.ofInt rows <;> rintro ⟨⟩ <;> assumption
  · rintro rfl
    cases n <;> rfl

theorem RowCount.toNat_bounds (n : RowCount) : 1 ≤ n.toNat ∧ n.toNat ≤ 4 := by cases n <;> decide

/-- The raw configuration that names the fields of `c`. -/
def EngineConfig.toRaw (c : EngineConfig) : RawConfig where
  rs := some c.rs
  en := some c.en
  dataPins := some [c.d0, c.d1, c.d2, c.d3]
  columns := some (c.columns : Int)
  rows := some (c.rows.toNat : Int)

theorem eq_toRaw_iff (config : RawConfig) (c : EngineConfig) : config = c.toRaw ↔
    config.rs = some c.rs ∧ config.en = some c.en ∧ config.dataPins = some [c.d0, c.d1, c.d2, c.d3] ∧
      config.columns = some (c.columns : Int) ∧ config.rows = some (c.rows.toNat : Int) := by
  cases config
  simp only [EngineConfig.toRaw, RawConfig.mk.injEq]

/-- The fields of a configuration pass the checks when they satisfy the invariants of R21. -/
theorem validConfig_toRaw {c : EngineConfig} (hok : c.Ok) : validConfig c.toRaw = true := by
  obtain ⟨hdistinct, hcolumns⟩ := hok
  have hrows := c.rows.toNat_bounds
  simp only [validConfig, Bool.and_eq_true]
  exact ⟨⟨⟨⟨⟨rfl, rfl⟩, decide_eq_true (by omega)⟩, decide_eq_true (by omega)⟩, decide_eq_true (by omega)⟩,
    hdistinct⟩

theorem configOf_toRaw {c : EngineConfig} (hok : c.Ok) : configOf c.toRaw = some c := by
  have hrows : RowCount.ofInt c.rows.toNat = some c.rows := RowCount.ofInt_eq_some_iff.2 rfl
  rw [configOf, if_pos (validConfig_toRaw hok)]
  simp [EngineConfig.toRaw, hrows]

/-- A configuration that passes the checks holds the fields of the raw one. -/
theorem eq_toRaw_of_configOf {config : RawConfig} {c : EngineConfig} (h : configOf config = some c) :
    config = c.toRaw := by
  obtain ⟨-, hcolumns⟩ := configOf_ok h
  revert h
  fun_cases configOf config
  case case1 rs en d0 d1 d2 d3 columns rows hrowsField hcolumnsField hdataField henField hrsField =>
    intro h
    obtain ⟨n, hn, rfl⟩ := Option.map_eq_some_iff.1 h
    have hrows : rows = (n.toNat : Int) := RowCount.ofInt_eq_some_iff.1 hn
    have hcast : columns = (columns.toNat : Int) := by
      dsimp only at hcolumns
      omega
    exact (eq_toRaw_iff _ _).2 ⟨hrsField, henField, hdataField, hcolumnsField.trans (congrArg some hcast),
      hrowsField.trans (congrArg some hrows)⟩
  all_goals exact nofun

theorem configOf_eq_some_iff (config : RawConfig) (c : EngineConfig) :
    configOf config = some c ↔ config = c.toRaw ∧ c.Ok :=
  ⟨fun h => ⟨eq_toRaw_of_configOf h, configOf_ok h⟩, fun ⟨h, hok⟩ => h ▸ configOf_toRaw hok⟩

/-- Settles O23: the checks accept the raw form of each configuration that satisfies R21, and nothing else. -/
theorem configurationChecks : Obligations.ConfigurationChecks := by
  intro config c
  have hok : c.Ok ↔ 1 ≤ c.columns ∧ [c.rs, c.en, c.d0, c.d1, c.d2, c.d3].Nodup := by
    rw [EngineConfig.Ok, allDistinct_iff_nodup, and_comm, EngineConfig.pins]
  rw [configOf_eq_some_iff, eq_toRaw_iff, hok]
  simp only [and_assoc]

/-- One failed check is enough: no configuration (R93). -/
theorem configOf_eq_none {config : RawConfig} (h : validConfig config = false) : configOf config = none := by
  rw [configOf, if_neg (by simp [h])]

/-! ### What an idle engine answers -/

theorem exec_create_ready {s : State} (hs : s.Idle) (hr : s.phase = .ready) (config : RawConfig) :
    exec (.create config) s = .next (s.deliver .alreadyInitialized) := by
  rw [← State.raise_of_idle hs, exec, execCreate, State.whenIdle_idle hs.1, hr]

theorem exec_create_invalid {s : State} {config : RawConfig} (hs : s.Idle) (hu : s.phase = .uninit)
    (hc : configOf config = none) : exec (.create config) s = .next (s.deliver .configurationError) := by
  rw [← State.raise_of_idle hs, exec, execCreate, State.whenIdle_idle hs.1, hu, hc]

theorem exec_create_valid {s : State} {config : RawConfig} {c : EngineConfig} (hs : s.Idle) (hu : s.phase = .uninit)
    (hc : configOf config = some c) :
    exec (.create config) s =
      .next { s with pending := calls (createEvents s.env c), inFlight := some (.create c) } := by
  rw [← State.accept_of_ne (createEvents_ne s.env c), exec, execCreate, State.whenIdle_idle hs.1, hu, hc]

/-- SETCURSOR of a READY engine with a negative row (R191). -/
theorem exec_setcursor_negative {s : State} {c : EngineConfig} (hs : s.Idle) (hr : s.ReadyWith c) (col : Nat)
    {row : Int} (hneg : row < 0) :
    exec (.setcursor col row) s = .next (s.deliver (.rowIndexUndefined row)) := by
  rw [← State.raise_of_idle hs, exec, execSetcursor, State.whenReady_ready hs.1 hr, if_pos hneg]

/-- Settles O24: a failed check leaves no configuration, whose CREATE only delivers its error. -/
theorem badConfigurationRejected : Obligations.BadConfigurationRejected := by
  intro s config hs hu hfail
  have hinvalid : validConfig config = false := by
    rcases hfail with h | h | h | h | h | h <;> simp [validConfig, h]
  exact exec_create_invalid hs hu (configOf_eq_none hinvalid)

/-- Settles O28: both refusals deliver their result on an idle engine and change nothing else. -/
theorem readyEngineRefuses : Obligations.ReadyEngineRefuses :=
  fun _ _ hs hr => ⟨exec_create_ready hs hr.1, fun col _ hneg => exec_setcursor_negative hs hr col hneg⟩

/-! ### A rejected pin -/

/-- Settles O44: the platform's answer decides the call, and the rejected one raises. -/
theorem rejectedCfgRaises : Obligations.RejectedCfgRaises := by
  intro s p l hbad
  rw [exec, execCfg, if_neg (by simp [hbad])]
  rfl

/-- Where the pins split at `p`, so do the calls of CREATE: the setup before `p`, its `Cfg`, the rest (R94). -/
theorem calls_createEvents_split {c : EngineConfig} {before behind : List PinId} {p : PinId}
    (hpins : c.pins = before ++ p :: behind) (env : Env) :
    ∃ rest, calls (createEvents env c) = calls (before.map fun q => .cfg q .low) ++ .cfg p .low :: rest := by
  refine ⟨calls (behind.map (fun q => .cfg q .low) ++ initEvents env c), ?_⟩
  simp [createEvents, setupEvents, hpins, Event.toInstr]

theorem accepted_cfgs {env : Env} {pins : List PinId} (h : ∀ q ∈ pins, cfgOk env q = true) :
    Accepted env (pins.map fun q => .cfg q .low) := by
  intro p l hm
  obtain ⟨q, hq, he⟩ := List.mem_map.1 hm
  cases he
  exact h _ hq

/-- Settles O22: the calls before the rejected one are performed one a step, and then it raises. -/
theorem createStopsAtRejectedPin : Obligations.CreateStopsAtRejectedPin := by
  intro s config c before behind p hs hu hc hpins haccepted hbad
  obtain ⟨rest, hcalls⟩ := calls_createEvents_split (c := c) hpins s.env
  refine ⟨_, exec_create_valid hs hu hc, ?_⟩
  have hrun := run_drain_rejected (s := { s with inFlight := some (.create c) }) .low rest
    (accepted_cfgs haccepted) hbad
  rw [List.length_map] at hrun
  rw [hcalls, hrun, State.performAll_frame]
  simp only [State.raise, hs.1, hs.2]

/-! ### The trace of CREATE -/

theorem time_append (a b : List Event) : time (a ++ b) = time a + time b := by
  induction a with
  | nil => simp [time]
  | cons e rest ih => cases e <;> simp [time, ih, Nat.add_assoc]

theorem time_initDelayEvents (d : Option Nat) : time (initDelayEvents (P := PinId) d) = d.getD 0 := by
  cases d <;> rfl

/-- A transfer lasts its settle delay, its init delay and the two pulses (R132, R145). -/
theorem time_write8Events (c : EngineConfig) (v : Byte) (rsFlag : Bool) (settle : Nat) (d : Option Nat) :
    time (write8Events c v rsFlag settle d) = settle + d.getD 0 + 6 := by
  simp only [write8Events, time_append, time_initDelayEvents, nibbleEvents, pulseEvents, time, tPulse]
  omega

theorem length_write8Events (c : EngineConfig) (v : Byte) (rsFlag : Bool) (settle : Nat) (d : Option Nat) :
    (write8Events c v rsFlag settle d).length = 22 + (initDelayEvents (P := PinId) d).length := by
  simp only [write8Events, List.length_append, nibbleEvents, pulseEvents, List.length_cons, List.length_nil]
  omega

/-- A transfer configures nothing. -/
theorem filter_isCfg_write8Events (c : EngineConfig) (v : Byte) (rsFlag : Bool) (settle : Nat) (d : Option Nat) :
    (write8Events c v rsFlag settle d).filter isCfg = [] := by
  cases d <;> rfl

/-- Settles O21: the six `Cfg` and the six transfers are counted one by one, and no event names columns or rows. -/
theorem createTraceIsFixed : Obligations.CreateTraceIsFixed := by
  intro env c
  refine ⟨createEvents_eq_createList env c, ?_, ?_, ?_, fun _ _ => rfl⟩ <;>
    rw [createEvents_eq_createList, createList]
  · simp only [List.length_append, length_write8Events, initDelayEvents, List.length_cons, List.length_nil]
  · simp only [List.filter_append, filter_isCfg_write8Events, List.append_nil]
    rfl
  · simp only [time_append, time_write8Events, time, Option.getD_some, Option.getD_none]

/-! ### The frames of each request -/

/-- A byte composed with the bit 7 of K.SETDDRAMADDR, for an address of the row table: the sum (R168). -/
theorem setDdramByte_rowOffset {k : Consts} (hk : k.setDdramAddr = 0x80) (index : Fin 4) :
    setDdramByte k (rowOffset index) = BitVec.ofNat 8 (0x80 + rowOffset index) := by
  rw [setDdramByte, hk, trunc8]
  revert index
  decide

/-- PRINT sends the frames of the last line of the table of R168. -/
theorem sends_print {c : EngineConfig} (hok : c.Ok) {env : Env} (hk : env.k.setDdramAddr = 0x80) (row : Nat)
    (text : List Nat) : Sends c (printEvents env c row text) (printFrames env.newline c.rows row text) := by
  induction text generalizing row with
  | nil => exact sends_nil c
  | cons code rest ih =>
    by_cases hn : code = env.newline
    · have hbyte : setDdramByte env.k (cursorAddr c.rows 0 (row + 1)) =
          BitVec.ofNat 8 (0x80 + rowOffset (clampRow c.rows (row + 1))) := by
        rw [cursorAddr, Nat.zero_add, setDdramByte_rowOffset hk]
      rw [printEvents, printFrames, if_pos (by simp [isNewline, hn]), if_pos hn, ← hbyte]
      exact (sends_setcursor hok env 0 (row + 1)).append (ih (row + 1))
    · rw [printEvents, printFrames, if_neg (by simp [isNewline, hn]), if_neg hn, ← trunc8_eq_ofNat_mod]
      exact Sends.append (fs := [⟨true, trunc8 code⟩]) (sends_write8 hok _ _ _ _) (ih row)

/-- Settles O49: what each request sends, its bytes composed of the default constants, is what the observer reads. -/
theorem framesOfEachRequest : Obligations.FramesOfEachRequest := by
  intro env c out hok hdefault hen
  have hk : env.k.setDdramAddr = 0x80 := by rw [hdefault]; rfl
  refine ⟨?_, ?_, fun col row => ?_, fun text => (sends_print hok hk 0 text).framesFrom_eq hen⟩
  · rw [(sends_create hok env).framesFrom_eq hen, hdefault]
    decide
  · rw [(sends_clear hok env).framesFrom_eq hen, hdefault]
    rfl
  · rw [(sends_setcursor hok env col row).framesFrom_eq hen, setDdramByte, hk]
    rfl

end Sys2Proof.Machine
end

section
/-! CLEAR served to its end (R105): an accepted command that is one transfer, and what it leaves on the pins. -/

namespace Sys2Proof.Machine

open Sys2Proof.Statements

/-- A command accepted as one transfer is served as that transfer. -/
theorem serves_write8 {s : State} {i : Instr} {c : EngineConfig} {v : Byte} {rsFlag : Bool} {settle : Nat}
    {initDelay : Option Nat} (hs : s.Idle)
    (hexec : exec i s = .next (s.accept .command (write8Events c v rsFlag settle initDelay))) :
    Serves s i (write8Events c v rsFlag settle initDelay) :=
  serves_of_accept hs (write8Events_ne _ _ _ _ _) (write8Events_accepted _ _ _ _ _ _) hexec

theorem exec_clear_ready {s : State} {c : EngineConfig} (hs : s.Idle) (hr : s.ReadyWith c) :
    exec .clear s = .next (s.accept .command (clearEvents s.env c)) :=
  State.whenReady_ready hs.1 hr _

/-- Settles O26: CLEAR is accepted as the one transfer of K.CLEARDISPLAY, whose size, time and end levels are those of
every transfer without an init delay. -/
theorem clearCompletes : Obligations.ClearCompletes := by
  intro s c hs hr
  refine ⟨serves_write8 hs (exec_clear_ready hs hr), length_write8Events _ _ _ _ _, time_write8Events _ _ _ _ _,
    fun hok => ?_, rfl⟩
  have hlevels := transferEndLevels c s.env.k.clearDisplay false 50 none s.out hok
  refine ⟨hlevels, fun hdefault => ?_⟩
  rw [hdefault] at hlevels ⊢
  exact hlevels

end Sys2Proof.Machine
end

section
/-! PRINT (R111 to R117): the events of a text character by character, what a text costs, and what it stores in a
settled display. -/

namespace Sys2Proof.Machine

/-! ### The events of a text -/

theorem printEvents_newline (env : Env) (c : EngineConfig) (row : Nat) (rest : List Nat) :
    printEvents env c row (env.newline :: rest) =
      setcursorEvents env c 0 (row + 1) ++ printEvents env c (row + 1) rest :=
  if_pos (beq_self_eq_true env.newline)

theorem printEvents_data {env : Env} {code : Nat} (h : code ≠ env.newline) (c : EngineConfig) (row : Nat)
    (rest : List Nat) : printEvents env c row (code :: rest) = dataEvents c code ++ printEvents env c row rest :=
  if_neg (mt eq_of_beq h)

/-- The rest of a text goes on with the row counter advanced by the newlines before it (R113). -/
theorem printEvents_append (env : Env) (c : EngineConfig) (row : Nat) (before rest : List Nat) :
    printEvents env c row (before ++ rest) =
      printEvents env c row before ++ printEvents env c (row + before.count env.newline) rest := by
  induction before generalizing row with
  | nil => rfl
  | cons code before ih =>
    rw [List.cons_append]
    by_cases hn : code = env.newline
    · subst hn
      rw [printEvents_newline, printEvents_newline, ih, List.count_cons_self, List.append_assoc, Nat.add_assoc,
        Nat.add_comm 1]
    · rw [printEvents_data hn, printEvents_data hn, ih, List.count_cons_of_ne hn, List.append_assoc]

/-- Settles O33: past the characters before it, a character is a newline or data. -/
theorem printEventsFollowTheText : Obligations.PrintEventsFollowTheText := by
  intro env c row before rest code
  rw [printEvents_append]
  congr 1
  split
  · next hn =>
    subst hn
    exact printEvents_newline env c _ rest
  · next hn =>
    rw [printEvents_data hn, dataEvents, trunc8_eq_ofNat_mod]
    rfl

/-! ### The cost of a text -/

/-- Newline or not, a character is one transfer (R116). -/
theorem printEvents_cons_transfer (env : Env) (c : EngineConfig) (row code : Nat) (rest : List Nat) :
    ∃ v rsFlag row', printEvents env c row (code :: rest) =
      write8Events c v rsFlag tSettle none ++ printEvents env c row' rest := by
  by_cases hn : code = env.newline
  · subst hn
    exact ⟨_, _, _, printEvents_newline env c row rest⟩
  · exact ⟨_, _, _, printEvents_data hn c row rest⟩

/-- What adds up along event lists and is `n` for every transfer without an init delay is `n` for each character. -/
theorem printEvents_cost {cost : List Event → Nat} {n : Nat} {c : EngineConfig} (hnil : cost [] = 0)
    (happend : ∀ a b, cost (a ++ b) = cost a + cost b)
    (htransfer : ∀ v rsFlag, cost (write8Events c v rsFlag tSettle none) = n) (env : Env) (row : Nat)
    (text : List Nat) : cost (printEvents env c row text) = n * text.length := by
  induction text generalizing row with
  | nil => exact hnil
  | cons code rest ih =>
    obtain ⟨v, rsFlag, row', hsplit⟩ := printEvents_cons_transfer env c row code rest
    rw [hsplit, happend, htransfer, ih, List.length_cons, Nat.mul_succ, Nat.add_comm]

/-- A transfer drives enable HIGH once per nibble (R132, R145). -/
theorem count_enable_write8Events {c : EngineConfig} (hok : c.Ok) (v : Byte) (rsFlag : Bool) :
    (write8Events c v rsFlag tSettle none).count (.wr c.en .high) = 2 := by
  obtain ⟨⟨a, -⟩, ⟨b0, b1, b2, b3⟩, -⟩ := hok.distinct
  simp [write8Events, nibbleEvents, pulseEvents, initDelayEvents, a, b0.symm, b1.symm, b2.symm,
    b3.symm]

/-- Settles O34: the three costs of a transfer, once per character. -/
theorem printSize : Obligations.PrintSize := fun env c row text =>
  ⟨printEvents_cost List.length_nil (fun _ _ => List.length_append)
      (fun v rsFlag => length_write8Events c v rsFlag tSettle none) env row text,
    printEvents_cost rfl time_append (fun v rsFlag => time_write8Events c v rsFlag tSettle none) env row text,
    fun hok => printEvents_cost List.count_nil (fun _ _ => List.count_append) (count_enable_write8Events hok) env row
      text⟩

/-! ### Frames on a settled display -/

/-- The display latches samples, in order (R166). -/
def Display.latchAll (env : Env) (samples : List Sample) (x : Display) : Display :=
  samples.foldl (fun y m => y.latch env m) x

@[simp] theorem Display.latchAll_nil (env : Env) (x : Display) : x.latchAll env [] = x := rfl
@[simp] theorem Display.latchAll_cons (env : Env) (m : Sample) (samples : List Sample) (x : Display) :
    x.latchAll env (m :: samples) = (x.latch env m).latchAll env samples := rfl

theorem Display.latchAll_append (env : Env) (a b : List Sample) (x : Display) :
    x.latchAll env (a ++ b) = (x.latchAll env a).latchAll env b := List.foldl_append

/-- The shadow after frames, in order (R173 to R177). -/
def Shadow.frameAll (env : Env) (fs : List Frame) (x : Shadow) : Shadow := fs.foldl (fun y f => Shadow.frame env f y) x

@[simp] theorem Shadow.frameAll_nil (env : Env) (x : Shadow) : x.frameAll env [] = x := rfl
@[simp] theorem Shadow.frameAll_cons (env : Env) (f : Frame) (fs : List Frame) (x : Shadow) :
    x.frameAll env (f :: fs) = (x.frame env f).frameAll env fs := rfl

/-- Of a list of events the display takes what the receiver latches, in order (R166). -/
theorem State.performAll_display {s : State} {c : EngineConfig} (hwired : s.wiring = some c) (events : List Event) :
    (s.performAll events).display = s.display.latchAll s.env (latchFrom c s.out events) := by
  induction events generalizing s with
  | nil => rfl
  | cons e rest ih =>
    rw [State.performAll_cons, ih (s := s.perform e) hwired, latchFrom, State.perform_display, hwired]
    cases hedge : isFallingEdge c s.out e with
    | true => rw [Display.after_edge hedge]; rfl
    | false => rw [Display.after_no_edge fun d hd => Option.some.inj hd ▸ hedge]; rfl

/-- The two nibbles of a frame complete it on a settled display (R167). -/
theorem Display.latchAll_samples {x : Display} (h : x.Settled) (env : Env) (f : Frame) :
    x.latchAll env f.samples = x.frame env f := by
  obtain ⟨hclear, hpower, hhalf⟩ := h
  have hhigh (m : Sample) : x.latch env m = { x with half := some m } := by
    rw [Display.latch_high hhalf, Display.arrive_of_no_duty hclear hpower]
  have hlow (hi lo : Sample) : ({ x with half := some hi }).latch env lo = x.frame env (frameOf hi lo) := by
    rw [Display.latch_low rfl, Display.arrive_of_no_duty (x := { x with half := some hi }) hclear hpower]
    rfl
  rw [Frame.samples, Display.latchAll_cons, Display.latchAll_cons, Display.latchAll_nil, hhigh, hlow, frameOf,
    joinNibbles_halves]

/-- A frame that is not the clear leaves the host owing nothing (R224). -/
theorem Display.Settled.frame {x : Display} (h : x.Settled) {env : Env} {f : Frame} (hf : f.isClear env.k = false) :
    (x.frame env f).Settled := by
  obtain ⟨hclear, hpower, -⟩ := h
  exact ⟨by rw [Display.frame_clearDuty, hf]; exact hclear, hpower, rfl⟩

/-- Frames without a clear reach the shadow of a settled display one by one. -/
theorem Display.latchAll_samples_shadow {env : Env} {fs : List Frame} (hfs : ∀ f ∈ fs, f.isClear env.k = false)
    {x : Display} (h : x.Settled) :
    (x.latchAll env (fs.flatMap Frame.samples)).shadow = x.shadow.frameAll env fs := by
  induction fs generalizing x with
  | nil => rfl
  | cons f rest ih =>
    obtain ⟨hf, hrest⟩ := List.forall_mem_cons.1 hfs
    rw [List.flatMap_cons, Display.latchAll_append, Display.latchAll_samples h, ih hrest (h.frame hf)]
    rfl

/-- What is sent to a settled display, no clear among it, reaches the shadow frame by frame. -/
theorem Sends.performAll_shadow {s : State} {c : EngineConfig} {events : List Event} {fs : List Frame}
    (hsends : Sends c events fs) (hwired : s.wiring = some c) (hen : s.out.get c.en ≠ some .high)
    (hsettled : s.display.Settled) (hfs : ∀ f ∈ fs, f.isClear s.env.k = false) :
    (s.performAll events).display.shadow = s.display.shadow.frameAll s.env fs := by
  rw [State.performAll_display hwired, (hsends s.out hen).1, Display.latchAll_samples_shadow hfs hsettled]

/-! ### What a text stores -/

/-- The frame of a character that is no newline (R114). -/
def dataFrame (code : Nat) : Frame := ⟨true, trunc8 code⟩

/-- A text without a newline sends its data frames (R114). -/
theorem sends_data {c : EngineConfig} (hok : c.Ok) {env : Env} (row : Nat) {text : List Nat}
    (hn : env.newline ∉ text) : Sends c (printEvents env c row text) (text.map dataFrame) := by
  induction text with
  | nil => exact sends_nil c
  | cons code rest ih =>
    rw [printEvents_data (List.ne_of_not_mem_cons hn).symm]
    exact Sends.append (fs := [dataFrame code]) (sends_write8 hok _ _ _ _) (ih (List.not_mem_of_not_mem_cons hn))

theorem acNext_of_no_jump {env : Env} {ac : BitVec 7} (h : env.acJumps.lookup ac.toNat = none) :
    acNext env ac = ac + 1 := by simp only [acNext, h]

/-- A cell of a stored text: one code at the front, the rest behind it. -/
theorem stored_cons (code : Nat) (rest : List Nat) (start a : Nat) (old : Byte) :
    (if start + 1 ≤ a ∧ a < start + 1 + rest.length then BitVec.ofNat 8 (rest.getD (a - (start + 1)) 0)
      else if a = start then trunc8 code else old) =
      if start ≤ a ∧ a < start + (code :: rest).length then BitVec.ofNat 8 ((code :: rest).getD (a - start) 0)
      else old := by
  rw [List.length_cons]
  rcases Nat.lt_trichotomy a start with hlt | rfl | hgt
  · rw [if_neg (by omega), if_neg (by omega), if_neg (by omega)]
  · rw [if_neg (by omega), if_pos rfl, if_pos (by omega), Nat.sub_self]
    rfl
  · obtain ⟨k, rfl⟩ : ∃ k, a = start + 1 + k := ⟨a - (start + 1), by omega⟩
    have hindex : start + 1 + k - start = k + 1 := by omega
    rw [Nat.add_sub_cancel_left, hindex, List.getD_cons_succ, if_neg (by omega : start + 1 + k ≠ start)]
    congr 1
    exact propext (by omega)

/-- Data frames store their bytes from the counter on and move it past them, where the display implements those
addresses and none is a jump (R175). -/
theorem Shadow.dataFrames_known {env : Env} {text : List Nat} {ddram : List Host.Cell} {ac : BitVec 7}
    (hwf : Memory.wf env.blank ddram = true) (hfits : ac.toNat + text.length < 128)
    (hplain : ∀ j < text.length, validAddr env (ac.toNat + j) = true ∧ env.acJumps.lookup (ac.toNat + j) = none) :
    ∃ after, Shadow.frameAll env (text.map dataFrame) (.known ddram ac) =
        .known after (BitVec.ofNat 7 (ac.toNat + text.length)) ∧
      ∀ a, Memory.read env.blank a after =
        if ac.toNat ≤ a ∧ a < ac.toNat + text.length then BitVec.ofNat 8 (text.getD (a - ac.toNat) 0)
        else Memory.read env.blank a ddram := by
  induction text generalizing ddram ac with
  | nil =>
    refine ⟨ddram, ?_, fun a => (if_neg (by simp)).symm⟩
    simp
  | cons code rest ih =>
    rw [List.length_cons] at hfits hplain
    obtain ⟨hvalid, hjump⟩ := hplain 0 (Nat.succ_pos _)
    obtain ⟨cells, hdata, hcells⟩ := Shadow.data_known (trunc8 code) hvalid hwf
    have hframe : Shadow.frame env (dataFrame code) (.known ddram ac) = .known cells (ac + 1) := by
      rw [Shadow.frame_data rfl, ← acNext_of_no_jump hjump]
      exact hdata
    have hcells_wf : Memory.wf env.blank cells = true :=
      Shadow.wf_frame env (dataFrame code) (Shadow.wf_known ac hwf) _ _ hframe
    have hac : (ac + 1).toNat = ac.toNat + 1 := by
      rw [BitVec.toNat_add_of_lt (by simp; omega)]; rfl
    obtain ⟨after, hrest, hread⟩ := ih (ac := ac + 1) hcells_wf (by omega) fun j hj => by
      rw [hac, Nat.add_right_comm]
      exact hplain (j + 1) (Nat.succ_lt_succ hj)
    rw [hac] at hrest hread
    refine ⟨after, ?_, fun a => ?_⟩
    · rw [List.map_cons, Shadow.frameAll_cons, hframe, hrest, List.length_cons, Nat.add_right_comm]
      rfl
    · rw [hread, hcells, stored_cons]

/-- Settles O58: the text is sent as data frames, none of them a clear, and each is stored at the counter. -/
theorem printStoresTheText : Obligations.PrintStoresTheText := by
  intro s c row text ddram ac hwired hok hen hsettled hknown hwf hn hfits hplain
  have hclear : ∀ f ∈ text.map dataFrame, f.isClear s.env.k = false :=
    List.forall_mem_map.2 fun _ _ => rfl
  rw [(sends_data hok row hn).performAll_shadow hwired hen hsettled hclear, hknown]
  exact Shadow.dataFrames_known hwf hfits hplain

end Sys2Proof.Machine
end

section
/-! SETCURSOR (R121 to R125): the clamp of the row, the transfer of the cell's address byte, and the rows that are
served alike. -/

namespace Sys2Proof.Machine

open Sys2Proof.Statements

/-- The clamp against the row count as a number (R122). -/
theorem clampRow_val (rows : RowCount) (row : Nat) : (clampRow rows row).val = min row (rows.toNat - 1) := by
  rw [RowCount.toNat_eq_last, Nat.add_sub_cancel, clampRow]

/-- SETCURSOR of a READY engine with a row of 0 or more (R121). -/
theorem exec_setcursor_ready {s : State} {c : EngineConfig} (hs : s.Idle) (hr : s.ReadyWith c) (col : Nat) {row : Int}
    (hrow : 0 ≤ row) :
    exec (.setcursor col row) s = .next (s.accept .command (setcursorEvents s.env c col row.toNat)) := by
  rw [exec, execSetcursor, State.whenReady_ready hs.1 hr, if_neg (Int.not_lt.2 hrow)]

/-- Settles O27: the clamped row is the given index of the row table, so SETCURSOR is accepted as the one transfer of
that cell's address byte, whose size, time and end levels are those of every transfer without an init delay. -/
theorem setCursorCompletes : Obligations.SetCursorCompletes := by
  intro s c col row clamped hs hr hclamped v
  have hindex : clampRow c.rows row = clamped := Fin.ext ((clampRow_val c.rows row).trans hclamped.symm)
  have hevents : setcursorEvents s.env c col row = write8Events c v false 50 none := by
    rw [setcursorEvents, cursorAddr, hindex]
    rfl
  have hexec : exec (.setcursor col row) s = .next (s.accept .command (write8Events c v false 50 none)) :=
    hevents ▸ exec_setcursor_ready hs hr col (Int.natCast_nonneg row)
  exact ⟨serves_write8 hs hexec, length_write8Events _ _ _ _ _, time_write8Events _ _ _ _ _,
    transferEndLevels c v false 50 none s.out⟩

/-- Only what is served with the configuration in force matters, in whatever phase and however busy the engine is. -/
theorem State.whenReady_congr {s : State} {c : EngineConfig} (hc : s.cfg = some c)
    {serve serve' : EngineConfig → State} (h : serve c = serve' c) : s.whenReady serve = s.whenReady serve' := by
  rw [State.whenReady, State.whenReady, hc]
  cases s.phase with
  | uninit => rfl
  | ready => exact congrArg (fun t => s.whenIdle (.next t)) h

/-- Rows clamped to the same index give the same SETCURSOR in every state (R121). -/
theorem exec_setcursor_of_clampRow_eq {s : State} {c : EngineConfig} (hc : s.cfg = some c) (col : Nat) {row row' : Nat}
    (h : clampRow c.rows row = clampRow c.rows row') :
    exec (.setcursor col row) s = exec (.setcursor col row') s := by
  refine State.whenReady_congr hc ?_
  rw [if_neg (Int.not_lt.2 (Int.natCast_nonneg row)), if_neg (Int.not_lt.2 (Int.natCast_nonneg row')),
    Int.toNat_natCast, Int.toNat_natCast, setcursorEvents, setcursorEvents, cursorAddr, cursorAddr, h]

/-- A negative row leaves an idle engine idle, a row of 0 or more leaves it with a transfer to perform (R121, R191). -/
theorem exec_setcursor_negative_ne {s : State} {c : EngineConfig} (hs : s.Idle) (hr : s.ReadyWith c) (col : Nat)
    {negative row : Int} (hneg : negative < 0) (hrow : 0 ≤ row) :
    exec (.setcursor col negative) s ≠ exec (.setcursor col row) s := by
  have hne : setcursorEvents s.env c col row.toNat ≠ [] := write8Events_ne _ _ _ _ _
  rw [exec_setcursor_negative hs hr col hneg, exec_setcursor_ready hs hr col hrow, State.accept_of_ne hne]
  intro h
  have hpending : s.pending = calls (setcursorEvents s.env c col row.toNat) :=
    congrArg State.pending (Host.Outcome.next.inj h)
  exact hne (List.map_eq_nil_iff.1 (hpending.symm.trans hs.1))

/-- Settles O29: the clamp is a minimum, SETCURSOR reads the row through it only, and a negative row is refused. -/
theorem rowClampIsOneSided : Obligations.RowClampIsOneSided := by
  intro rows row
  refine ⟨fun hbeyond => ?_, clampRow_of_lt, ?_, ?_⟩
  · rw [clampRow_val]
    omega
  · rintro s c col hc rfl hbeyond
    refine exec_setcursor_of_clampRow_eq hc col (Fin.ext ?_)
    rw [clampRow_val, clampRow_val]
    omega
  · intro s c col negative hs hr hneg
    exact exec_setcursor_negative_ne hs hr col hneg (Int.le_refl 0)

end Sys2Proof.Machine
end

section
/-! The transfer WRITE8 (R132, R135), the events the requests are made of (R131, R150 to R152), and why no step of a
state that meets the invariant stops. -/

namespace Sys2Proof.Machine

open Sys2Proof.Statements

/-! ### WRITE8 called in place -/

theorem highNibble_eq_extractLsb' (v : Byte) : highNibble v = v.extractLsb' 4 4 := by
  rw [highNibble, BitVec.extractLsb', Nat.shiftRight_eq_div_pow]

theorem lowNibble_eq_extractLsb' (v : Byte) : lowNibble v = v.extractLsb' 0 4 := rfl

/-- Settles O40: WRITE8 is the call of its one transfer, the halves of the byte being its two nibbles. -/
theorem write8Completes : Obligations.Write8Completes := by
  intro s c v rsFlag settle initDelay hwired
  rw [← highNibble_eq_extractLsb', ← lowNibble_eq_extractLsb']
  have hcalls : Calls s (.write8 v rsFlag settle initDelay) (write8Events c v rsFlag settle initDelay) :=
    calls_write8 hwired rfl
  cases initDelay with
  | none => exact hcalls
  | some t => exact hcalls

/-! ### Where register select is written -/

/-- A nibble and its pulse write the data pins and enable only. -/
theorem wr_rs_not_mem_half {c : EngineConfig} (hok : c.Ok) (n : Nibble) (l : Level) :
    Event.wr c.rs l ∉ nibbleEvents c n ++ pulseEvents c := by
  obtain ⟨⟨hen, h0, h1, h2, h3⟩, -⟩ := hok.distinct
  simp [nibbleEvents, pulseEvents, hen, h0, h1, h2, h3]

theorem wr_not_mem_initDelayEvents (d : Option Nat) (p : PinId) (l : Level) :
    Event.wr p l ∉ initDelayEvents d := by cases d <;> simp [initDelayEvents]

/-- A transfer is the settle sleep, the write of register select, and events that do not write it again (R135). -/
theorem write8Events_eq_settle_select {c : EngineConfig} (hok : c.Ok) (v : Byte) (rsFlag : Bool) (settle : Nat)
    (initDelay : Option Nat) :
    ∃ rest, write8Events c v rsFlag settle initDelay = .sleep settle :: .wr c.rs (lvl rsFlag) :: rest ∧
      ∀ l, Event.wr c.rs l ∉ rest := by
  have hhalf := wr_rs_not_mem_half hok
  exact ⟨(nibbleEvents c (highNibble v) ++ pulseEvents c) ++
      (initDelayEvents initDelay ++ (nibbleEvents c (lowNibble v) ++ pulseEvents c)),
    write8Events_halves c v rsFlag settle initDelay,
    fun l => List.not_mem_append (hhalf _ l)
      (List.not_mem_append (wr_not_mem_initDelayEvents initDelay c.rs l) (hhalf _ l))⟩

/-- Settles O47: the first two events of a transfer are known, and behind them register select is not written. -/
theorem registerSelectWrittenOnce : Obligations.RegisterSelectWrittenOnce := by
  intro c v rsFlag settle initDelay hok
  obtain ⟨rest, hevents, hrest⟩ := write8Events_eq_settle_select hok v rsFlag settle initDelay
  rw [hevents]
  refine ⟨rfl, rfl, fun k l hk => ?_, fun k p l hp hk => ?_⟩
  · match k, hk with
    | 1, _ => rfl
    | k + 2, hk => exact absurd (List.mem_of_getElem? (l := rest) hk) (hrest l)
  · match k, hk with
    | 1, hk =>
      obtain ⟨⟨-, h0, h1, h2, h3⟩, -⟩ := hok.distinct
      obtain rfl : c.rs = p := (Event.wr.inj (Option.some.inj hk)).1
      simp [h0, h1, h2, h3] at hp
    | k + 2, _ => omega

/-! ### The events of the requests -/

/-- PRINT's events are the engine's own: they are those of its transfers. -/
theorem printEvents_of (env : Env) (c : EngineConfig) (row : Nat) (text : List Nat) :
    ∀ e ∈ printEvents env c row text, Event.Of c e := by
  obtain ⟨transfers, hsplit⟩ := printEvents_transfers env c row text
  intro e he
  rw [hsplit] at he
  obtain ⟨x, -, hx⟩ := List.mem_flatMap.1 he
  exact (write8Events_of c x.1 x.2 (.inl rfl) e hx).1

/-- A CREATE the platform stops performs only events of the CREATE (R94). -/
theorem planCreate_events_subset (env : Env) (c : EngineConfig) : (planCreate env c).events ⊆ createEvents env c := by
  unfold planCreate
  split
  · exact List.Subset.refl _
  · next p hrejected =>
    obtain ⟨-, -, rest, hsplit⟩ := setupEvents_split hrejected
    rw [createEvents, hsplit, List.append_assoc]
    exact List.subset_append_left _ _

/-- Settles O51: branch by branch of the big-step function, a request's events are those of a CREATE, whole transfers,
or none. -/
theorem eventsOfRequests : Obligations.EventsOfRequests := by
  intro env phase cfg r c
  fun_cases plan env phase cfg r <;> intro hconfig e he
  -- CREATE with checks passed
  case case3 =>
    rw [planCreate_creates] at hconfig
    obtain ⟨⟨⟩⟩ | ⟨⟨⟩, -⟩ := hconfig
    exact createEvents_of env c e (planCreate_events_subset env c he)
  -- CLEAR and SETCURSOR, served: one transfer
  case case4 | case7 =>
    obtain ⟨⟨⟩⟩ | ⟨-, ⟨⟩⟩ := hconfig
    exact (write8Events_of c _ _ (.inl rfl) e he).1
  -- PRINT, served
  case case5 text _ =>
    obtain ⟨⟨⟩⟩ | ⟨-, ⟨⟩⟩ := hconfig
    exact printEvents_of env c 0 text e he
  all_goals exact absurd he List.not_mem_nil

/-! ### No step stops -/

/-- Performing an event never stops the machine: it is performed or, a `Cfg` of a rejected pin, raises (R138, R186). -/
theorem exec_toInstr_next (e : Event) (s : State) : ∃ t, exec e.toInstr s = .next t := by
  rcases exec_toInstr e s with ⟨hok, -⟩ | ⟨_, _, -, -, hbad⟩
  · exact ⟨_, hok⟩
  · exact ⟨_, hbad⟩

/-- An idle engine that meets the invariant answers every request (R185). -/
theorem State.Inv.request_next {s : State} (h : s.Inv) (hp : s.pending = []) (r : Request) :
    ∃ t, exec r.toInstr s = .next t := by
  obtain ⟨_, t, hexec, -⟩ := runsToBigStep r ⟨hp, h.idle hp⟩ h.print_row h.ready_iff
  exact ⟨t, hexec⟩

/-- And every packet: what decodes is a request or reserved, the rest is malformed (R65, R192). -/
theorem State.Inv.packet_next {s : State} (h : s.Inv) (hp : s.pending = []) {bytes : List Byte}
    {moves : List HostMove} (hh : s.host = .packet bytes :: moves) : ∃ t, step s = .next t := by
  cases hd : decodePacket bytes with
  | malformed => exact ⟨_, step_malformed hp hh hd⟩
  | unknownFrame => exact absurd hd (decodePacket_ne_unknownFrame bytes)
  | ok i =>
    rw [step_packet hp hh hd]
    rcases decodePacket_ok hd with ⟨r, rfl⟩ | ⟨opcode, rest, rfl⟩
    · exact (h.issue _ moves).request_next hp r
    · exact ⟨_, State.whenIdle_idle (s := s.issue _ moves) hp _⟩

/-- Settles O15: busy, the head of `pending` is an event; idle, each move of the host is answered. -/
theorem invariantStatesNeverStop : Obligations.InvariantStatesNeverStop := by
  intro s h
  cases hp : s.pending with
  | cons i rest =>
    rw [step_pending hp]
    obtain ⟨events, hevents, -⟩ := h.pending_events
    obtain ⟨e, -, rfl⟩ := List.mem_map.1 (show i ∈ calls events from hevents ▸ hp ▸ List.mem_cons_self)
    exact exec_toInstr_next e _
  | nil =>
    cases hh : s.host with
    | nil => exact ⟨s, step_still hp hh⟩
    | cons move moves =>
      cases move with
      | packet bytes => exact h.packet_next hp hh
      | request r => rw [step_request hp hh]; exact (h.issue _ moves).request_next hp r
      | wait us => exact ⟨_, step_wait hp hh⟩
      | reset => exact ⟨_, step_reset hp hh⟩

end Sys2Proof.Machine
end

section
/-! The enable line: PULSE called in place (R145), and that whatever is pending leaves enable LOW (R146). A request in
progress reads one configuration from its acceptance to its completion, so completing it changes neither what is
pending nor whose enable pin is meant. -/

namespace Sys2Proof.Machine

open Sys2Proof.Statements

/-! ### PULSE -/

theorem pulseEvents_accepted (env : Env) (c : EngineConfig) : Accepted env (pulseEvents c) := by
  intro p l h
  simp [pulseEvents] at h

/-- A pulse ends with enable LOW (R145). -/
theorem pulseEvents_enable (c : EngineConfig) (out : Latches) :
    (Latches.afterAll (pulseEvents c) out).get c.en = some .low :=
  Latches.get_set_self c.en .low _

/-- Settles O42: PULSE is the call of its six events, the last write of which drives enable LOW. -/
theorem pulseCompletes : Obligations.PulseCompletes := fun s c hwired =>
  ⟨calls_of_callWith (events := pulseEvents) rfl hwired (List.cons_ne_nil _ _) (pulseEvents_accepted s.env c),
    rfl, rfl, pulseEvents_enable c s.out, rfl⟩

/-! ### What "enable quiet" depends on -/

/-- With the pins named and events pending, those events have to end with enable LOW. -/
theorem State.enableQuiet_of_low {s : State} {c : EngineConfig} {events : List Event} (hwired : s.wiring = some c)
    (hpending : s.pending = calls events) (hlow : (Latches.afterAll events s.out).get c.en = some .low) :
    s.EnableQuiet := by
  intro d others hd hothers
  obtain rfl : c = d := Option.some.inj (hwired.symm.trans hd)
  obtain rfl : events = others := calls_injective (hpending.symm.trans hothers)
  exact hlow

/-- Where no configuration is in force there is no enable pin. -/
theorem State.enableQuiet_of_unwired {s : State} (h : s.wiring = none) : s.EnableQuiet := by
  intro c _ hwired
  rw [h] at hwired
  cases hwired

/-- Only the configuration read, the pending list and the latches matter. -/
theorem State.EnableQuiet.congr {s t : State} (hq : s.EnableQuiet) (hwiring : t.wiring = s.wiring)
    (hpending : t.pending = s.pending) (hout : t.out = s.out) : t.EnableQuiet := by
  unfold State.EnableQuiet
  rw [hwiring, hpending, hout]
  exact hq

/-! ### Each operation keeps enable quiet -/

/-- Completing a request leaves the configuration read as it is: that of a CREATE is now in `cfg` (R92, R96). -/
theorem State.settle_wiring (s : State) : s.settle.wiring = s.wiring := by
  rcases s.settle_cases with h | ⟨-, hf, h⟩ | ⟨-, c, hf, h⟩ <;> rw [h]
  all_goals simp only [State.wiring, hf]

theorem State.settle_pending (s : State) : s.settle.pending = s.pending := by
  rcases s.settle_cases with h | ⟨-, -, h⟩ | ⟨-, c, -, h⟩ <;> rw [h]

theorem State.settle_out (s : State) : s.settle.out = s.out := by
  rcases s.settle_cases with h | ⟨-, -, h⟩ | ⟨-, c, -, h⟩ <;> rw [h]

theorem State.EnableQuiet.settle {s : State} (hq : s.EnableQuiet) : s.settle.EnableQuiet :=
  hq.congr s.settle_wiring s.settle_pending s.settle_out

/-- The head of `pending` performed and taken off the list: what is pending still drives enable to the same level. -/
theorem State.EnableQuiet.performHead {s : State} (hq : s.EnableQuiet) {e : Event} {more : List Event}
    (hp : s.pending = calls (e :: more)) : ({ s.perform e with pending := calls more } : State).EnableQuiet := by
  intro c events hwired hpending
  obtain rfl : more = events := calls_injective hpending
  exact hq c (e :: more) hwired hp

/-- An idle engine that raises stays as quiet as it was. -/
theorem State.EnableQuiet.raise {s : State} (hq : s.EnableQuiet) (hs : s.Idle) (x : Result) :
    (s.raise x).EnableQuiet :=
  hq.congr (by simp only [State.wiring, State.raise_inFlight, State.raise_cfg, hs.2]) hs.1.symm rfl

/-- A READY engine that is idle and quiet has enable LOW (R146). -/
theorem State.EnableQuiet.enable_low {s : State} (hq : s.EnableQuiet) {c : EngineConfig} (hs : s.Idle)
    (hr : s.ReadyWith c) : s.out.get c.en = some .low :=
  hq c [] (hr.wiring hs.2) hs.1

/-- A command is accepted whose events end with enable LOW. -/
theorem State.enableQuiet_acceptCommand {s : State} {c : EngineConfig} (hr : s.ReadyWith c) {events : List Event}
    (hlow : (Latches.afterAll events s.out).get c.en = some .low) : (s.accept .command events).EnableQuiet :=
  State.EnableQuiet.settle (State.enableQuiet_of_low (c := c) hr.2 rfl hlow)

/-- Whole transfers end with enable LOW, where it is LOW also if there are none. -/
theorem transfers_keep_enable_low {c : EngineConfig} {out : Latches} (hlow : out.get c.en = some .low)
    (transfers : List (Byte × Bool)) :
    (Latches.afterAll (transfers.flatMap fun x : Byte × Bool => write8Events c x.1 x.2 tSettle none) out).get c.en =
      some .low := by
  by_cases hnil : transfers = []
  · subst hnil; exact hlow
  · exact transfers_enable hnil out

/-! ### Every step keeps enable quiet -/

/-- A request of an idle engine is turned away, or loads events that end with enable LOW. -/
theorem State.EnableQuiet.request {s t : State} (hq : s.EnableQuiet) (hs : s.Idle) {r : Request}
    (hexec : exec r.toInstr s = .next t) : t.EnableQuiet := by
  cases request_cases hexec with
  | turnedAway x _ ht => rw [ht]; exact hq.raise hs x
  | creating config c _ _ _ ht =>
    rw [ht]
    exact State.enableQuiet_of_low (c := c) rfl rfl (createEvents_enable s.env c s.out)
  | serving c transfers _ hr ht _ =>
    rw [ht]
    exact State.enableQuiet_acceptCommand (s := { s with printRow := t.printRow }) hr
      (transfers_keep_enable_low (hq.enable_low hs hr) transfers)

/-- Only a `Cfg` raises while events are pending, and one is pending only during a CREATE, when no configuration is
stored yet (R94, R150). -/
theorem State.Inv.performs_or_unconfigured {s t : State} (h : s.Inv) {e : Event} {more : List Event}
    (hp : s.pending = calls (e :: more)) (hexec : exec e.toInstr { s with pending := calls more } = .next t) :
    t = ({ s.perform e with pending := calls more } : State).settle ∨ s.cfg = none ∧ ∃ x, t = s.raise x := by
  rcases exec_toInstr e { s with pending := calls more } with ⟨hok, -⟩ | ⟨p, l, rfl, -, hbad⟩
  · exact .inl (Host.Outcome.next.inj (hexec.symm.trans hok))
  · refine .inr ⟨?_, _, Host.Outcome.next.inj (hexec.symm.trans hbad)⟩
    obtain ⟨c, hcreate⟩ := h.configuring p l (by rw [hp]; exact List.mem_cons_self)
    have huninit := h.creating c hcreate
    have hready := h.ready_iff
    rw [huninit] at hready
    simpa using hready

/-- A busy step: the head is performed, or a CREATE stops and leaves no configuration. -/
theorem State.Inv.busy_enableQuiet {s t : State} (h : s.Inv) (hq : s.EnableQuiet) {i : Instr} {rest : List Instr}
    (hp : s.pending = i :: rest) (hexec : exec i { s with pending := rest } = .next t) : t.EnableQuiet := by
  obtain ⟨e, more, hpending, -⟩ := h.busy_cases hp hexec
  obtain ⟨rfl, rfl⟩ := List.cons.inj (hp.symm.trans hpending)
  rcases h.performs_or_unconfigured hp hexec with rfl | ⟨hcfg, x, rfl⟩
  · exact (hq.performHead hp).settle
  · exact State.enableQuiet_of_unwired hcfg

/-- Settles O16, by the cases of a step. -/
theorem enableLowWhenIdle : Obligations.EnableLowWhenIdle := by
  refine ⟨fun s t h hq hstep => ?_, fun s c h hq hp hr => hq.enable_low ⟨hp, h.idle hp⟩ hr⟩
  have hissue (create : Bool) (moves : List HostMove) : (s.issue create moves).EnableQuiet := hq.congr rfl rfl rfl
  cases step_cases hstep with
  | busy i rest hp hexec => exact h.busy_enableQuiet hq hp hexec
  | still _ _ ht => rw [ht]; exact hq
  | wait us moves _ _ ht => rw [ht]; exact hq.congr rfl rfl rfl
  | reset moves _ _ ht => rw [ht]; exact State.enableQuiet_of_unwired rfl
  | malformed _ moves hp _ ht => rw [ht]; exact (hissue false moves).raise ⟨hp, h.idle hp⟩ _
  | reserved _ _ moves hp ht _ => rw [ht]; exact (hissue false moves).raise ⟨hp, h.idle hp⟩ _
  | request r moves hp hexec _ => exact (hissue _ moves).request ⟨hp, h.idle hp⟩ hexec

end Sys2Proof.Machine
end

section
/-! The display shadow of R172 to R179: what a panel shows, what the frames do to a known shadow, and what reaches it
through one transfer and through a whole CREATE. -/

namespace Sys2Proof.Machine

/-! ### What the panel shows -/

theorem rowOffset_eq_getD (r : Fin 4) : rowOffset r = ([0x00, 0x40, 0x14, 0x54] : List Nat).getD r.val 0 := by
  revert r
  decide

/-- The panel shows a cell of a known DDRAM within its geometry and nothing outside it (R179). -/
theorem Display.visible_known {x : Display} {ddram : List Host.Cell} {ac : BitVec 7} (h : x.shadow = .known ddram ac)
    (env : Env) (c : EngineConfig) (r : Fin 4) (col : Nat) :
    x.visible env c r col =
      if r.val < c.rows.toNat ∧ col < c.columns then some (Memory.read env.blank (col + rowOffset r) ddram)
      else none := by
  simp only [Display.visible, h]

/-- Settles O60: the geometry decides, and the row offsets are those of the table. -/
theorem visibleCells : Obligations.VisibleCells := by
  intro env c x ddram ac r col hknown
  rw [Display.visible_known hknown, ← rowOffset_eq_getD]
  exact ⟨fun hin => if_pos hin, fun hout => if_neg hout⟩

/-! ### Frames on a known shadow -/

/-- Settles O54: the clear, a set-address and a data frame are each one case of what a frame does. -/
theorem framesMoveTheShadow : Obligations.FramesMoveTheShadow := by
  intro env ddram ac hwf
  refine ⟨Shadow.frame_clear env _, fun _ => rfl, fun v hclear hbit hvalid => ?_, fun v hvalid => ?_⟩
  · rw [Shadow.frame_setAddr (f := ⟨false, v⟩) rfl hclear hbit, Shadow.setAddr_known, if_pos hvalid]
  · rw [Shadow.frame_data (f := ⟨true, v⟩) rfl]
    exact Shadow.data_known v hvalid hwf

/-- The bytes of CREATE's steps 2 to 6 with the default constants: the two raw bytes and the three mode bytes (R168). -/
def modeBytes : List Byte := [0x33, 0x32, 0x0C, 0x28, 0x06]

/-- With the default constants none of them is the clear or a set-address (R176, R177). -/
theorem modeBytes_default :
    ∀ v ∈ modeBytes, v ≠ defaultConsts.clearDisplay ∧ v.getLsbD 7 = false ∧ isModeByte defaultConsts v = true := by
  decide

/-- The mode frames and the raw frames leave the shadow alone (R176, R177). -/
theorem Shadow.frame_modeByte {env : Env} (hdefault : ConstantsDefault env) {v : Byte} (hv : v ∈ modeBytes)
    (x : Shadow) : x.frame env ⟨false, v⟩ = x := by
  obtain ⟨hclear, hbit, hmode⟩ := modeBytes_default v hv
  rw [← hdefault] at hclear hmode
  rw [Shadow.frame_mode (f := ⟨false, v⟩) rfl hclear hbit, if_pos hmode]

/-- Settles O55: a mode byte is no clear and no set-address, a byte with bit 7 set is not the default clear, and no
frame finds what is lost. -/
theorem framesLeaveOrLoseTheShadow : Obligations.FramesLeaveOrLoseTheShadow := by
  intro env hdefault
  refine ⟨fun v hv x => Shadow.frame_modeByte hdefault hv x, fun v ddram ac hbit hinvalid => ?_, Shadow.frame_lost env⟩
  have hclear : v ≠ env.k.clearDisplay := by
    rintro rfl
    rw [hdefault] at hbit
    exact absurd hbit (by decide)
  rw [Shadow.frame_setAddr (f := ⟨false, v⟩) rfl hclear hbit, Shadow.setAddr_known, if_neg (by simp [hinvalid])]

/-! ### A transfer on a settled display -/

theorem Frame.isClear_iff (k : Consts) (rs : Bool) (v : Byte) :
    Frame.isClear k ⟨rs, v⟩ = true ↔ rs = false ∧ v = k.clearDisplay := by
  simp [Frame.isClear]

/-- A frame on a settled display (R173 to R177, R224). -/
theorem Display.Settled.frame_eq {x : Display} (h : x.Settled) (env : Env) (rs : Bool) (v : Byte) :
    x.frame env ⟨rs, v⟩ =
      { half := none
        shadow := x.shadow.frame env ⟨rs, v⟩
        clearDuty := if rs = false ∧ v = env.k.clearDisplay then env.tClearExec else 0
        powerDuty := 0 } := by
  obtain ⟨hclear, hpower, -⟩ := h
  simp only [Display.frame, hclear, hpower, Frame.isClear_iff]

/-- Settles O56: the transfer is latched as the two samples of its one frame. -/
theorem transferReachesTheShadow : Obligations.TransferReachesTheShadow := by
  intro s c v rsFlag settle initDelay hwired hok hen hsettled
  obtain ⟨hlatch, -⟩ := sends_write8 hok v rsFlag settle initDelay s.out hen
  rw [State.performAll_display hwired, hlatch, List.flatMap_singleton, Display.latchAll_samples hsettled,
    hsettled.frame_eq]

/-! ### CREATE and the shadow -/

/-- The frames of command bytes. -/
def commandFrames (bytes : List Byte) : List Frame := bytes.map (Frame.mk false)

/-- With the default constants a CREATE sends the mode bytes and then the clear (R168). -/
theorem sends_create_default {c : EngineConfig} (hok : c.Ok) {env : Env} (hdefault : ConstantsDefault env) :
    Sends c (createEvents env c) (commandFrames modeBytes ++ [⟨false, env.k.clearDisplay⟩]) := by
  have hbytes : displayControlByte env.k = 0x0C ∧ functionSetByte env.k = 0x28 ∧ entryModeByte env.k = 0x06 := by
    rw [hdefault]
    decide
  obtain ⟨hcontrol, hfunction, hentry⟩ := hbytes
  have hsends := sends_create hok env
  rw [hcontrol, hfunction, hentry] at hsends
  exact hsends

/-- A mode frame changes nothing of a settled display. -/
theorem Display.Settled.frame_modeByte {x : Display} (h : x.Settled) {env : Env} (hdefault : ConstantsDefault env)
    {v : Byte} (hv : v ∈ modeBytes) : x.frame env ⟨false, v⟩ = x := by
  have hclear : ¬ Frame.isClear env.k ⟨false, v⟩ = true := by
    rw [Frame.isClear_iff, hdefault]
    exact fun hbyte => (modeBytes_default v hv).1 hbyte.2
  rw [Display.frame, Shadow.frame_modeByte hdefault hv, if_neg hclear, ← h.2.2]

/-- Nor do any number of them, as they are latched. -/
theorem Display.Settled.latchAll_modeBytes {x : Display} (h : x.Settled) {env : Env} (hdefault : ConstantsDefault env)
    {bytes : List Byte} (hbytes : bytes ⊆ modeBytes) :
    x.latchAll env ((commandFrames bytes).flatMap Frame.samples) = x := by
  induction bytes with
  | nil => rfl
  | cons v rest ih =>
    obtain ⟨hv, hrest⟩ := List.cons_subset.1 hbytes
    rw [commandFrames, List.map_cons, List.flatMap_cons, Display.latchAll_append, Display.latchAll_samples h,
      h.frame_modeByte hdefault hv]
    exact ih hrest

/-- The events of a CREATE reach a settled display as the clear alone (R172, R173). -/
theorem State.performAll_create_display {s : State} {c : EngineConfig} (hwired : s.wiring = some c) (hok : c.Ok)
    (hdefault : ConstantsDefault s.env) (hen : s.out.get c.en ≠ some .high) (hsettled : s.display.Settled) :
    (s.performAll (createEvents s.env c)).display =
      { half := none, shadow := s.display.shadow.clear, clearDuty := s.env.tClearExec, powerDuty := 0 } := by
  obtain ⟨hlatch, -⟩ := sends_create_default hok hdefault s.out hen
  rw [State.performAll_display hwired, hlatch, List.flatMap_append, Display.latchAll_append,
    hsettled.latchAll_modeBytes hdefault (List.Subset.refl _), List.flatMap_singleton,
    Display.latchAll_samples hsettled, hsettled.frame_eq, Shadow.frame_clear, if_pos ⟨rfl, rfl⟩]

/-- Unless it is lost, a shadow cleared by a CREATE that returns is blank and homed (R172, R173). -/
theorem Shadow.created_clear {x : Shadow} (h : x ≠ .lost) : x.clear.created = .known [] 0 := by
  cases x with
  | lost => contradiction
  | _ => rfl

/-- Performing events makes no shadow known that is not (R172). -/
theorem State.isKnown_of_performAll {events : List Event} {s : State}
    (h : (s.performAll events).display.shadow.IsKnown) : s.display.shadow.IsKnown := by
  induction events generalizing s with
  | nil => exact h
  | cons e rest ih => exact Display.isKnown_of_after (ih h)

/-- Before its last event a list of accepted events has been performed as far as the steps go (R28, R30). -/
theorem run_drain_prefix {events : List Event} {s : State} {k : Nat} (hk : k < events.length)
    (hok : Accepted s.env events) :
    State.run k { s with pending := calls events } =
      .next { s.performAll (events.take k) with pending := calls (events.drop k) } := by
  rcases Nat.eq_zero_or_pos k with rfl | hpos
  · rfl
  · have hlength : (events.take k).length = k := List.length_take_of_le (Nat.le_of_lt hk)
    have hdrain := run_drain (s := s) (calls (events.drop k)) (List.ne_nil_of_length_pos (hlength.symm ▸ hpos))
      fun p l hmem => hok p l (List.mem_of_mem_take hmem)
    rw [hlength, ← calls_append, List.take_append_drop] at hdrain
    rw [hdrain, State.settle_of_pending]
    simpa using hk

/-- Settles O57: the mode frames change nothing and the clear is the last frame, which the completion makes known; no
event before it makes anything known. -/
theorem createMakesTheDisplayKnown : Obligations.CreateMakesTheDisplayKnown := by
  intro s config c hs hu hc hpins hdefault hen hsettled hlost
  obtain ⟨-, hlength, -⟩ := createTraceIsFixed s.env c
  have hload := State.accept_of_ne (createEvents_ne s.env c) (.create c) s
  have hrun := run_accept (.create c) hs.1 (createEvents_accepted hpins)
  rw [hload, hlength, State.settle_create (State.performAll_begun_pending _ _ hs.1)
    (State.performAll_inFlight _ _)] at hrun
  refine ⟨_, _, exec_create_valid hs hu hc, hrun, ?_, fun hunknown k hk => ?_⟩
  · have hdisplay := State.performAll_create_display (s := { s with inFlight := some (.create c) }) rfl (configOf_ok hc)
      hdefault hen hsettled
    simp only [Display.created, hdisplay, Shadow.created_clear hlost]
  · refine ⟨_, run_drain_prefix (s := { s with inFlight := some (.create c) }) (hlength.symm ▸ hk)
      (createEvents_accepted hpins), fun ddram ac hknown => ?_⟩
    obtain ⟨ddram', ac', hbefore⟩ := State.isKnown_of_performAll ⟨ddram, ac, hknown⟩
    exact hunknown ddram' ac' hbefore

/-! ### The times of latches -/

theorem length_latchTimesFrom (c : EngineConfig) (now : Nat) (out : Latches) (events : List Event) :
    (latchTimesFrom c now out events).length = (latchFrom c out events).length := by
  induction events generalizing now out with
  | nil => rfl
  | cons e rest ih =>
    rw [latchTimesFrom, latchFrom]
    split
    · rw [List.length_cons, List.length_cons, ih]
    · exact ih _ _

theorem latchTimesFrom_append (c : EngineConfig) (now : Nat) (out : Latches) (a b : List Event) :
    latchTimesFrom c now out (a ++ b) =
      latchTimesFrom c now out a ++ latchTimesFrom c (now + time a) (Latches.afterAll a out) b := by
  induction a generalizing now out with
  | nil => rfl
  | cons e rest ih =>
    have htime : now + time (e :: rest) = now + time [e] + time rest := by
      rw [← List.singleton_append, time_append, Nat.add_assoc]
    rw [List.cons_append, latchTimesFrom, latchTimesFrom, ih, htime, Latches.afterAll_cons]
    split <;> rfl

/-- From any levels with enable not HIGH the receiver latches exactly at the given times since the first event (R169),
and enable is not left HIGH. -/
def LatchesAt (c : EngineConfig) (events : List Event) (times : List Nat) : Prop :=
  ∀ (now : Nat) (out : Latches), out.get c.en ≠ some .high →
    latchTimesFrom c now out events = times.map (now + ·) ∧ (Latches.afterAll events out).get c.en ≠ some .high

theorem LatchesAt.append {c : EngineConfig} {a b : List Event} {ts us : List Nat} (ha : LatchesAt c a ts)
    (hb : LatchesAt c b us) : LatchesAt c (a ++ b) (ts ++ us.map (time a + ·)) := by
  intro now out hen
  obtain ⟨htimesA, hmid⟩ := ha now out hen
  obtain ⟨htimesB, hend⟩ := hb (now + time a) _ hmid
  rw [latchTimesFrom_append, htimesA, htimesB, Latches.afterAll_append, List.map_append, List.map_map]
  exact ⟨congrArg _ (List.map_congr_left fun t _ => Nat.add_assoc _ _ t), hend⟩

/-- What sends nothing is latched at no time. -/
theorem Sends.latchesAt_nil {c : EngineConfig} {events : List Event} (h : Sends c events []) :
    LatchesAt c events [] := by
  intro now out hen
  obtain ⟨hlatch, hend⟩ := h out hen
  refine ⟨List.eq_nil_of_length_eq_zero ?_, hend⟩
  rw [length_latchTimesFrom, hlatch]
  rfl

/-- A pulse is latched at its second falling write, after two sleeps of 1 (R145, R166). -/
theorem latchesAt_pulse (c : EngineConfig) : LatchesAt c (pulseEvents c) [2] := by
  intro now out hen
  refine ⟨?_, by rw [pulseEvents_enable]; decide⟩
  simp [pulseEvents, latchTimesFrom, isFallingEdge_enable, Latches.get_set_self, hen, time, tPulse]

/-- The writes of a nibble send nothing. -/
theorem sends_nibble {c : EngineConfig} (hok : c.Ok) (n : Nibble) : Sends c (nibbleEvents c n) [] := by
  obtain ⟨-, ⟨b0, b1, b2, b3⟩, -⟩ := hok.distinct
  intro out hen
  refine ⟨latchFrom_eq_nil (fun e he => halfWrites_no_edge hok .low n e (List.mem_cons_of_mem _ he)) out, ?_⟩
  simpa [nibbleEvents, Latches.get_set, b0, b1, b2, b3] using hen

/-- The writes of a nibble take no time, its pulse three sleeps of 1 (R134, R145). -/
theorem time_half (c : EngineConfig) (n : Nibble) : time (nibbleEvents c n ++ pulseEvents c) = 3 := rfl

theorem latchesAt_half {c : EngineConfig} (hok : c.Ok) (n : Nibble) :
    LatchesAt c (nibbleEvents c n ++ pulseEvents c) [2] :=
  (sends_nibble hok n).latchesAt_nil.append (latchesAt_pulse c)

theorem sends_initDelay (c : EngineConfig) (d : Option Nat) : Sends c (initDelayEvents d) [] := by
  intro out hen
  cases d <;> exact ⟨rfl, hen⟩

/-- The settle sleep and the write of register select send nothing. -/
theorem sends_settle_select {c : EngineConfig} (hok : c.Ok) (settle : Nat) (l : Level) :
    Sends c [.sleep settle, .wr c.rs l] [] := by
  obtain ⟨⟨a, -⟩, -⟩ := hok.distinct
  intro out hen
  refine ⟨?_, ?_⟩
  · simp [latchFrom, isFallingEdge_wr_ne a]
  · simpa [Latches.get_set, a.symm] using hen

/-- A transfer is latched 2 after its settle delay, and 3 and the init delay after that (R132, R169). -/
theorem latchesAt_write8 {c : EngineConfig} (hok : c.Ok) (v : Byte) (rsFlag : Bool) (settle : Nat) (d : Option Nat) :
    LatchesAt c (write8Events c v rsFlag settle d) [settle + 2, settle + d.getD 0 + 5] := by
  have h := (sends_settle_select hok settle (lvl rsFlag)).latchesAt_nil.append
    ((latchesAt_half hok (highNibble v)).append
      ((sends_initDelay c d).latchesAt_nil.append (latchesAt_half hok (lowNibble v))))
  have hlow : settle + d.getD 0 + 5 = settle + (3 + (d.getD 0 + 2)) := by omega
  rw [write8Events_halves, hlow, ← time_initDelayEvents d]
  exact h

/-- Settles O52: the six `Cfg` are latched at no time, and each of the six transfers twice. -/
theorem createLatchTimes : Obligations.CreateLatchTimes := by
  intro env c out hok hen
  have h := (sends_cfgs c c.pins).latchesAt_nil.append <|
    (((((latchesAt_write8 hok rawInit1Value false tSettle (some tInit1)).append
      (latchesAt_write8 hok rawInit2Value false tSettle (some tInit2))).append
      (latchesAt_write8 hok (displayControlByte env.k) false tSettle none)).append
      (latchesAt_write8 hok (functionSetByte env.k) false tSettle none)).append
      (latchesAt_write8 hok (entryModeByte env.k) false tSettle none)).append
      (latchesAt_write8 hok env.k.clearDisplay false tSettle none)
  refine (h 0 out hen).1.trans ?_
  simp [time_append, time_write8Events, tSettle, tInit1, tInit2, EngineConfig.pins, time]

end Sys2Proof.Machine
end

section
/-! CLEAR, PRINT and SETCURSOR before a CREATE has completed: each asks for the phase before it looks at its operands. -/

namespace Sys2Proof.Machine

/-- What the three commands do on an idle UNINIT engine: they deliver NotInitialized and change nothing else (R190). -/
theorem exec_command_uninit_deliver {s : State} {i : Instr} (hs : s.Idle) (hu : s.phase = .uninit)
    (hi : i = .clear ∨ (∃ text, i = .print text) ∨ ∃ col row, i = .setcursor col row) :
    exec i s = .next (s.deliver .notInitialized) := by
  rw [← State.raise_of_idle hs, exec_command_uninit hs.1 hu hi]

/-- Settles O25: the three commands only deliver their refusal, whatever the text, the column and the row. -/
theorem commandsRefusedBeforeCreate : Obligations.CommandsRefusedBeforeCreate :=
  fun _ hs hu => ⟨exec_command_uninit_deliver hs hu (.inl rfl),
    fun text => exec_command_uninit_deliver hs hu (.inr (.inl ⟨text, rfl⟩)),
    fun col row => exec_command_uninit_deliver hs hu (.inr (.inr ⟨col, row, rfl⟩))⟩

end Sys2Proof.Machine
end
